-- ==== Sys2Proof/Word.lean ====
section
/-! DEFINITION. The block's data: a byte, and the request record, which is this hardware's instruction word. -/

namespace Sys2Proof

/-- Every datum of the block is an unsigned 8-bit byte (R12, R13); bit 0 is the least significant. -/
abbrev Byte := BitVec 8

/-- The request record (R60). DLEN is the number of bytes in `data`, so it is not stored a second time:
see `Request.dlen` (R28; assumption 6). -/
structure Request where
  /-- CTRL: selects the operation (R61). -/
  ctrl : Byte
  /-- CC: command code, read by ENCODE only. -/
  cc : Byte
  /-- EXP: expected parameter count, read by DECODE only. -/
  exp : Byte
  /-- DATA: ENCODE's parameters, DECODE's received frame, ACKCHK's read; index 0 is first on the wire (R40). -/
  data : List Byte
  deriving DecidableEq, Repr

end Sys2Proof
end

