-- ==== Sys2Proof/Machine/Checksum.lean ====
section
/-! DEFINITION. Byte sequences and the checksum arithmetic over them (R14, R15, R100 to R102). -/

namespace Sys2Proof.Machine

/-- s[i], for i < |s| (R14). Every rule checks the length first; what an index past the end reads as reaches no
response (assumption 13). -/
def byteAt (s : List Byte) (i : Nat) : Byte := s.getD i 0x00#8

/-- s[i..j): the elements at the indices i ≤ k < j (R14). -/
def slice (s : List Byte) (i j : Nat) : List Byte := (s.drop i).take (j - i)

/-- Σ s, as an unbounded natural (R14). -/
def byteSum (s : List Byte) : Nat := (s.map BitVec.toNat).sum

/-- sum8(s) = (Σ s) mod 256 (R15, R100). -/
def sum8 (s : List Byte) : Byte := BitVec.ofNat 8 (byteSum s)

/-- neg8(v) = ((~v) + 1) mod 256: two's-complement negation, never the plain complement (R15, R16, R100). -/
def neg8 (v : Byte) : Byte := ~~~v + 1

/-- LCS(L) = neg8(L) (R101). -/
def lcs (len : Byte) : Byte := neg8 len

/-- DCS(TFI, PD) = neg8(sum8([TFI] ++ PD)) (R102). -/
def dcs (tfi : Byte) (pd : List Byte) : Byte := neg8 (sum8 (tfi :: pd))

end Sys2Proof.Machine
end

