-- ==== Sys2Proof/Machine/Frame.lean ====
section
/-! DEFINITION. The fixed constants (R11) and the frame's wire format (R70, R71). -/

namespace Sys2Proof.Machine

/-- PREAMBLE. -/
def preamble : Byte := 0x00#8
/-- START1. -/
def start1 : Byte := 0x00#8
/-- START2. -/
def start2 : Byte := 0xFF#8
/-- POSTAMBLE. -/
def postamble : Byte := 0x00#8
/-- TFI_OUT, the TFI of every frame the encoder emits. -/
def tfiOut : Byte := 0xD4#8
/-- ACK_PATTERN. -/
def ackPattern : List Byte := [0x00#8, 0x00#8, 0xFF#8, 0x00#8, 0xFF#8, 0x00#8]
/-- ACK_OFFSET, the index at which the pattern starts in a read. -/
def ackOffset : Nat := 1
/-- ACK_READ_LEN. -/
def ackReadLen : Nat := 7

/-- LEN counts TFI and PD: L = 1 + |PD| (R71). -/
def lenByte (pd : List Byte) : Byte := BitVec.ofNat 8 (1 + pd.length)

/-- The frame of a TFI and its packet data (R70). -/
def frame (tfi : Byte) (pd : List Byte) : List Byte :=
  [preamble, start1, start2, lenByte pd, lcs (lenByte pd), tfi] ++ pd ++ [dcs tfi pd, postamble]

end Sys2Proof.Machine
end

