-- ==== Sys2Proof/Config.lean ====
section
/-! DEFINITION. The two build-time parameters (R9, R10, R26): fixed when the block is built, never written. -/

namespace Sys2Proof.Config

/-- One build of the block. -/
structure Build where
  /-- MAX_PARAMS: the largest number of parameter bytes ENCODE accepts (R9). -/
  maxParams : Nat
  /-- DATA_MAX: the largest request data length the block accepts (R10). -/
  dataMax : Nat
  deriving DecidableEq, Repr

/-- The defaults of R9 and R10. -/
def Build.default : Build := { maxParams := 253, dataMax := 262 }

/-- The ranges of R9 (0 to 253) and R10 (262 to 511). -/
def Build.wf (b : Build) : Bool :=
  decide (b.maxParams ≤ 253) && decide (262 ≤ b.dataMax) && decide (b.dataMax ≤ 511)

end Sys2Proof.Config
end

