-- ==== Sys2Proof/Machine/State.lean ====
section
/-! DEFINITION. The machine's state as plain data, its reset value, and the reasons a step can stop. -/

namespace Sys2Proof.Machine

/-- PHASE (R22). Encoding 3 is never produced, so it has no constructor (I4; assumption 9). -/
inductive Phase where
  | idle | busy | done
  deriving DecidableEq, Repr

/-- STATUS (R160). Codes 6 and 7 are never produced, so they have no constructor (I3; assumption 9). -/
inductive Status where
  | ok | badMarker | badChecksum | lengthMismatch | contractViolation | badRequest
  deriving DecidableEq, Repr

/-- The response record (R68). OLEN is the number of bytes in `odata`: see `Response.olen` (assumption 6). -/
structure Response where
  /-- STATUS: the outcome code. -/
  status : Status
  /-- ACK: the ACKCHK verdict. -/
  ack : Bool
  /-- TFI: the received TFI byte. -/
  tfi : Byte
  /-- CODE: the received response code, PD[0]. -/
  code : Byte
  /-- ODATA: ENCODE's frame, DECODE's parameters; index 0 is first on the wire (R40). -/
  odata : List Byte
  deriving DecidableEq, Repr

/-- One thing that happens at the block: a move of the requester (R197) or of the block itself (R196)
(assumptions 1, 2 and 4). -/
inductive Event where
  /-- The requester presents a request (R193). -/
  | submit (q : Request)
  /-- The requester asks for the response (R194). -/
  | collect
  /-- Reset (R190). -/
  | reset
  /-- The block takes its compute step if it is enabled (R196). -/
  | compute
  /-- Nothing moves: the block stays as it is for one more step (R196, R172). -/
  | stay
  deriving DecidableEq, Repr

/-- What the port shows the requester for one submit or collect (R193, R194; assumption 3). -/
inductive Reply where
  /-- The submit was taken. -/
  | accepted
  /-- The submit or collect has no move. -/
  | held
  /-- The collect was taken: the response, whole. -/
  | response (r : Response)
  deriving DecidableEq, Repr

/-- The machine. `phase`, `reqL` and `rspL` are all the state the spec gives it (R22 to R31). `build` is its
configuration, which no step writes (R26; assumption 5). `events` and `replies` are the requester's side of the port,
the model's own fields (assumptions 1 and 3). -/
structure State where
  /-- PHASE (R22). -/
  phase : Phase
  /-- REQ_L, the latched request (R23). -/
  reqL : Option Request
  /-- RSP_L, the latched response (R24). -/
  rspL : Option Response
  /-- MAX_PARAMS and DATA_MAX (R9, R10). -/
  build : Config.Build
  /-- What happens next, oldest first. -/
  events : List Event
  /-- What the port has shown the requester, oldest first. -/
  replies : List Reply
  deriving DecidableEq, Repr

/-- The reasons a step can stop with a fault: none. The block raises no trap and does not halt (R164, R168), and its
function is total and never hangs (R161, R196), so nothing raises one (assumption 15; safe, there is nothing to hide). -/
inductive Fault where
  deriving DecidableEq, Repr

/-- The reasons a step can be refused. -/
inductive Refusal where
  /-- Raised by an arm of `exec` whose instruction has no meaning yet; no arm of this model raises it. Safe: it stops. -/
  | notModelled (mnemonic : String)
  deriving DecidableEq, Repr

/-- The machine right after reset (R30), in the default build (R9, R10), with nothing yet at its port
(assumptions 1, 3 and 5). -/
def State.reset : State :=
  { phase := .idle, reqL := none, rspL := none, build := Config.Build.default, events := [], replies := [] }

/-- The three outcomes of this machine's step. -/
abbrev Result := Host.Outcome State Fault Refusal

end Sys2Proof.Machine
end

