-- ==== Sys2Proof/Machine/Flags.lean ====
section
/-! DEFINITION. The flags and codes of the response and the phase: STATUS, ACK, OLEN, PHASE as the numbers the spec
gives them (R12, R22, R25, R68, R160). -/

namespace Sys2Proof.Machine

/-- The 3-bit STATUS code (R160). -/
def Status.code : Status → BitVec 3
  | .ok => 0
  | .badMarker => 1
  | .badChecksum => 2
  | .lengthMismatch => 3
  | .contractViolation => 4
  | .badRequest => 5

/-- The 2-bit PHASE encoding (R22). -/
def Phase.encoding : Phase → BitVec 2
  | .idle => 0
  | .busy => 1
  | .done => 2

/-- OLEN, the number of valid bytes in ODATA (R68). -/
def Response.olen (r : Response) : Nat := r.odata.length

/-- OLEN as the 9-bit port field (R12, R68). -/
def Response.olenField (r : Response) : BitVec 9 := BitVec.ofNat 9 r.olen

/-- ACK as the 1-bit port field (R68). -/
def Response.ackField (r : Response) : BitVec 1 := BitVec.ofBool r.ack

end Sys2Proof.Machine
end

