-- ==== Sys2Proof/Machine/Ops.lean ====
section
/-! DEFINITION. The shared operations: what a response holds, how an operation ends (a result or a raised status, R15),
and the handshake's transitions (R190 to R196). -/

namespace Sys2Proof.Machine

/-- A response in which every field is 0 and ODATA is empty but STATUS (R69). -/
def Response.blank (st : Status) : Response :=
  { status := st, ack := false, tfi := 0x00#8, code := 0x00#8, odata := [] }

/-- The error response of a raised status (R163). -/
def Response.error (st : Status) : Response := Response.blank st

/-- The response an operation ends in: its own, or the error response of the status it raised (R15, R163). -/
def responseOf : Except Status Response → Response
  | .ok r => r
  | .error st => Response.error st

/-- The effect of a compute step whose response is r: RSP_L <- r, REQ_L <- none, PHASE <- DONE (R196). -/
def State.complete (s : State) (r : Response) : State :=
  { s with phase := .done, reqL := none, rspL := some r }

/-- Raising a status, this block's only kind of exception: the error response, by the same compute step as a success;
no other state exists to change (R163, R164). There is no return from it (R168). -/
def State.raise (s : State) (st : Status) : State := s.complete (Response.error st)

/-- An operation ends: with its response, or by raising a status (R15). -/
def State.finish (s : State) : Except Status Response → State
  | .ok r => s.complete r
  | .error st => s.raise st

/-- Reset, in any phase: PHASE <- IDLE, REQ_L <- none, RSP_L <- none (R190). The build is not touched (R30). -/
def State.resetBlock (s : State) : State :=
  { s with phase := .idle, reqL := none, rspL := none }

/-- Submit (R193): latch the whole request in IDLE (R44, R195); no move otherwise. -/
def State.submit (s : State) (q : Request) : Reply × State :=
  match s.phase with
  | .idle => (.accepted, { s with phase := .busy, reqL := some q })
  | .busy => (.held, s)
  | .done => (.held, s)

/-- Collect (R194): hand over RSP_L whole in DONE and empty it; no move otherwise. -/
def State.collect (s : State) : Reply × State :=
  match s.phase, s.rspL with
  | .done, some r => (.response r, { s with phase := .idle, rspL := none })
  | _, _ => (.held, s)

/-- The port shows the requester a reply (assumption 3). -/
def State.shown (s : State) (r : Reply) : State := { s with replies := s.replies ++ [r] }

end Sys2Proof.Machine
end

