-- ==== Sys2Proof/Machine/AckDetector.lean ====
section
/-! DEFINITION. The acknowledge detector: ACKCHK (R140). -/

namespace Sys2Proof.Machine

/-- The verdict (R140): at least 7 bytes were read (R141) and those at the indices 1 to 6 are the acknowledge pattern.
The status byte at index 0 is discarded (R142) and the indices from 7 on are not read (R143). -/
def ackVerdict (read : List Byte) : Bool :=
  decide (ackReadLen ≤ read.length) &&
    decide (slice read ackOffset ackReadLen = ackPattern)

/-- ACKCHK (R140): STATUS is OK whatever the verdict. -/
def ackResult (read : List Byte) : Response :=
  { Response.blank .ok with ack := ackVerdict read }

/-- ACKCHK. -/
def execAckchk (read : List Byte) (s : State) : Result := .next (s.complete (ackResult read))

end Sys2Proof.Machine
end

