-- ==== Sys2Proof/Syntax.lean ====
section
/-! DEFINITION. The instructions: one constructor per row of spec/opcode_table.json (R62), each with the request
fields its operation reads and no other (R60, R66). -/

namespace Sys2Proof

inductive Instr where
  /-- ENCODE, CTRL = 0x01: command code and parameter bytes (R104). -/
  | encode (cc : Byte) (params : List Byte)
  /-- DECODE, CTRL = 0x02: exact parameter count and received bytes (R110, EXPMIN = 0). -/
  | decode (exp : Byte) (raw : List Byte)
  /-- DECODE.MIN, CTRL = 0x06: minimum parameter count and received bytes (R110, EXPMIN = 1). -/
  | decodeMin (exp : Byte) (raw : List Byte)
  /-- ACKCHK, CTRL = 0x03: the bytes read, the status byte first (R140). -/
  | ackchk (read : List Byte)
  deriving DecidableEq, Repr

end Sys2Proof
end

