-- ==== Sys2Proof/WellFormed.lean ====
section
/-! DEFINITION. Which requests and instructions the request port can carry: DLEN is a 9-bit count (R28, R60). A request
longer than DATA_MAX but not than 511 is well formed; the block answers it BAD_REQUEST (R65). -/

namespace Sys2Proof

/-- The bytes fit the 9-bit DLEN field. -/
def fitsDlen (data : List Byte) : Bool := decide (data.length ≤ 511)

def Request.wf (q : Request) : Bool := fitsDlen q.data

def Instr.wf : Instr → Bool
  | .encode _ params => fitsDlen params
  | .decode _ raw => fitsDlen raw
  | .decodeMin _ raw => fitsDlen raw
  | .ackchk read => fitsDlen read

end Sys2Proof
end

