-- ==== Sys2Proof/Decode.lean ====
section
/-! DEFINITION. The decoder, total on every request and rejecting by name; the encoder, from the same table (R62); and
the host's view of a table word. -/

namespace Sys2Proof

/-- DLEN, the number of valid bytes in DATA (R60). -/
def Request.dlen (q : Request) : Nat := q.data.length

/-- DLEN as the 9-bit port field (R12, R60). -/
def Request.dlenField (q : Request) : BitVec 9 := BitVec.ofNat 9 q.dlen

/-- OP = CTRL[1:0] (R61). -/
def ctrlOp (c : Byte) : BitVec 2 := c.extractLsb' 0 2

/-- EXPMIN = CTRL[2] (R61). -/
def ctrlExpMin (c : Byte) : Bool := c.getLsbD 2

/-- CTRL[7:3], reserved, must be 0 (R61). -/
def ctrlReserved (c : Byte) : BitVec 5 := c.extractLsb' 3 5

/-- What a CTRL byte selects: one name per row of spec/opcode_table.json. -/
inductive Opcode where
  | encode | decode | decodeMin | ackchk
  deriving DecidableEq, Repr

/-- Why a CTRL byte is a reserved encoding: the three classes R64 lists. The response does not tell them apart
(R162; assumption 12). -/
inductive Reject where
  /-- OP = 00: CTRL is 0x00 or 0x04. -/
  | opZero
  /-- EXPMIN = 1 with OP ≠ 10: CTRL is 0x05 or 0x07. -/
  | expMinWithoutDecode
  /-- CTRL[7:3] ≠ 0: CTRL is 0x08 to 0xFF. -/
  | reservedBits
  deriving DecidableEq, Repr

/-- The operation map of R62 and the reserved encodings of R64. -/
def decodeCtrl (c : Byte) : Except Reject Opcode :=
  if ctrlReserved c ≠ 0x00#5 then .error .reservedBits
  else if ctrlOp c = 0b00#2 then .error .opZero
  else if ctrlOp c = 0b10#2 then .ok (if ctrlExpMin c then .decodeMin else .decode)
  else if ctrlExpMin c then .error .expMinWithoutDecode
  else if ctrlOp c = 0b01#2 then .ok .encode
  else .ok .ackchk

/-- The operands each operation takes from the request, as they stand (R60, R63); the fields it does not use are
dropped (R66). -/
def Opcode.withOperands (q : Request) : Opcode → Instr
  | .encode => .encode q.cc q.data
  | .decode => .decode q.exp q.data
  | .decodeMin => .decodeMin q.exp q.data
  | .ackchk => .ackchk q.data

/-- The instruction a request asks for, or the name of the reason there is none. -/
def decodeRequest (q : Request) : Except Reject Instr :=
  match decodeCtrl q.ctrl with
  | .error r => .error r
  | .ok op => .ok (op.withOperands q)

/-- The request of an instruction: R62's CTRL value, and 0 in every field the mnemonic does not take (R75). -/
def encodeRequest : Instr → Request
  | .encode cc params => { ctrl := 0x01#8, cc := cc, exp := 0x00#8, data := params }
  | .decode exp raw => { ctrl := 0x02#8, cc := 0x00#8, exp := exp, data := raw }
  | .decodeMin exp raw => { ctrl := 0x06#8, cc := 0x00#8, exp := exp, data := raw }
  | .ackchk read => { ctrl := 0x03#8, cc := 0x00#8, exp := 0x00#8, data := read }

/-- The request a table word stands for: the table gives a row the 8 bits of CTRL, and every other field is 0 and DATA
empty (assumption 11). -/
def tableRequest (nbits w : Nat) : Request :=
  { ctrl := BitVec.ofNat 8 (w % 2 ^ nbits), cc := 0x00#8, exp := 0x00#8, data := [] }

/-- The instruction the decoder reads from a table word. -/
def decodeTableWord (nbits w : Nat) : Option Instr :=
  match decodeRequest (tableRequest nbits w) with
  | .ok i => some i
  | .error _ => none

end Sys2Proof
end

