-- ==== Sys2Proof/Machine/Operands.lean ====
section
/-! DEFINITION. What is checked of a request and its operands: the request-level checks (R165, items 1 and 2), the
capacity of ENCODE (R104) and the two forms of EXP (R113). Every operand is an unsigned byte or a byte sequence taken as
it stands (R63), so there is no other operand form. -/

namespace Sys2Proof.Machine

/-- DLEN ≤ DATA_MAX (R65). -/
def acceptsLength (b : Config.Build) (q : Request) : Bool := decide (q.dlen ≤ b.dataMax)

/-- The instruction a latched request is executed as, or BAD_REQUEST: DLEN first, then CTRL (R64, R65, R165). -/
def checkRequest (b : Config.Build) (q : Request) : Except Status Instr :=
  if acceptsLength b q then
    match decodeRequest q with
    | .ok i => .ok i
    | .error _ => .error .badRequest
  else .error .badRequest

/-- ENCODE's frame-capacity contract: n ≤ MAX_PARAMS (R104). -/
def withinCapacity (b : Config.Build) (params : List Byte) : Bool := decide (params.length ≤ b.maxParams)

/-- How EXP constrains the parameter count (R61, R113). -/
inductive ExpMode where
  /-- EXPMIN = 0: the count equals EXP. -/
  | exact
  /-- EXPMIN = 1: the count is at least EXP. -/
  | atLeast
  deriving DecidableEq, Repr

/-- Whether a parameter count k meets EXP (R113; step 8 of R110). -/
def ExpMode.meets (mode : ExpMode) (exp : Byte) (k : Nat) : Bool :=
  match mode with
  | .exact => decide (k = exp.toNat)
  | .atLeast => decide (exp.toNat ≤ k)

end Sys2Proof.Machine
end

