-- ==== Sys2Proof/Machine/FrameCodec.lean ====
section
/-! DEFINITION. The frame codec's operations: ENCODE (R104), DECODE and DECODE.MIN (R110). -/

namespace Sys2Proof.Machine

/-- ENCODE (R104): CONTRACT_VIOLATION past the capacity, else the command frame with TFI 0xD4. The command code and the
parameters are checked against nothing else (R105). -/
def encodeResult (b : Config.Build) (cc : Byte) (params : List Byte) : Except Status Response :=
  if withinCapacity b params then
    .ok { Response.blank .ok with odata := frame tfiOut (cc :: params) }
  else .error .contractViolation

/-- What a good frame answers (R110): the received TFI and response code, and the k = L - 2 parameters. -/
def decodedResponse (raw : List Byte) (len : Nat) : Response :=
  { Response.blank .ok with
      tfi := byteAt raw 5, code := byteAt raw 6, odata := slice raw 7 (7 + (len - 2)) }

/-- Steps 4 to 8 of DECODE (R110), once the LCS identity has made LEN trusted (R72). TFI is not checked (R111) and bytes
after the POSTAMBLE are not read (R114). -/
def decodeBody (mode : ExpMode) (exp : Byte) (raw : List Byte) (len : Nat) : Except Status Response :=
  -- step 4
  if len < 2 then .error .lengthMismatch
  -- step 5
  else if raw.length < len + 7 then .error .lengthMismatch
  -- step 6
  else if sum8 (slice raw 5 (6 + len)) ≠ 0x00#8 then .error .badChecksum
  -- step 7
  else if byteAt raw (6 + len) ≠ postamble then .error .badMarker
  -- step 8
  else if mode.meets exp (len - 2) then .ok (decodedResponse raw len)
  else .error .lengthMismatch

/-- DECODE (R110): the eight steps in their order; the first that fails decides the STATUS (R165). DATA[0] is not checked
and nothing is searched for (R112). -/
def decodeResult (mode : ExpMode) (exp : Byte) (raw : List Byte) : Except Status Response :=
  -- step 1
  if raw.length < 5 then .error .lengthMismatch
  -- step 2
  else if byteAt raw 1 ≠ start1 ∨ byteAt raw 2 ≠ start2 then .error .badMarker
  -- step 3
  else if byteAt raw 3 + byteAt raw 4 ≠ 0x00#8 then .error .badChecksum
  else decodeBody mode exp raw (byteAt raw 3).toNat

/-- ENCODE. -/
def execEncode (cc : Byte) (params : List Byte) (s : State) : Result :=
  .next (s.finish (encodeResult s.build cc params))

/-- DECODE, EXPMIN = 0. -/
def execDecode (exp : Byte) (raw : List Byte) (s : State) : Result :=
  .next (s.finish (decodeResult .exact exp raw))

/-- DECODE.MIN, EXPMIN = 1. -/
def execDecodeMin (exp : Byte) (raw : List Byte) (s : State) : Result :=
  .next (s.finish (decodeResult .atLeast exp raw))

end Sys2Proof.Machine
end

