-- ==== Sys2Proof/Machine/Dispatch.lean ====
section
/-! DEFINITION. The one dispatch: each instruction's meaning, the effect of the compute step that executes it (R161, R196). -/

namespace Sys2Proof.Machine

def exec (i : Instr) (s : State) : Host.Outcome State Fault Refusal :=
  match i with
  | .encode cc params => Sys2Proof.Machine.execEncode cc params s
  | .decode exp raw => Sys2Proof.Machine.execDecode exp raw s
  | .decodeMin exp raw => Sys2Proof.Machine.execDecodeMin exp raw s
  | .ackchk read => Sys2Proof.Machine.execAckchk read s

end Sys2Proof.Machine
end

