-- ==== Sys2Proof/Machine/Handshake.lean ====
section
/-! DEFINITION. The block's own move and what each event does (R190 to R197). -/

namespace Sys2Proof.Machine

/-- Compute (R196): in BUSY with a latched request, the request is admitted (R165) and executed, or answered
BAD_REQUEST, in one step. In every other state the step is not enabled and nothing moves (assumption 8). -/
def compute (s : State) : Result :=
  match s.phase, s.reqL with
  | .busy, some q =>
    match checkRequest s.build q with
    | .ok i => exec i s
    | .error st => .next (s.raise st)
  | _, _ => .next s

/-- What one event does. A submit or a collect that has no move leaves the block as it is, and the requester is shown
that it is held (R193, R194; assumption 2). -/
def handle (e : Event) (s : State) : Result :=
  match e with
  | .submit q => .next ((s.submit q).2.shown (s.submit q).1)
  | .collect => .next (s.collect.2.shown s.collect.1)
  | .reset => .next s.resetBlock
  | .compute => compute s
  | .stay => .next s

/-- What happens when no event is left: the block takes its own step if it can, and otherwise nothing moves (R172, R196;
assumption 4). -/
def handleNone (s : State) : Result := compute s

/-- Latch a request and let the block compute next: what `withFetchWord` needs (assumption 10). -/
def State.latchNext (s : State) (q : Request) : State :=
  { s with phase := .busy, reqL := some q, rspL := none, events := .compute :: s.events }

end Sys2Proof.Machine
end

