-- ==== Sys2Proof/Machine/Step.lean ====
section
/-! DEFINITION. The step: the next event happens, or the block moves by itself when none is left. -/

namespace Sys2Proof.Machine

def step (s : State) : Host.Outcome State Fault Refusal :=
  match s.events with
  | [] => handleNone s
  | e :: rest => handle e { s with events := rest }

/-- The state in which the very next step executes the instruction of a table word: the request is latched as a submit
latches it, and the block computes next (assumptions 10 and 11). -/
def State.withFetchWord (s : State) (nbits w : Nat) : State := s.latchNext (tableRequest nbits w)

end Sys2Proof.Machine
end

