-- ==== Sys2Proof/Machine/Assembler.lean ====
section
/-! DEFINITION. The textual syntax for requests (R75, R76): one request a line, as an abstract line, its request, and a
reader of the text itself. It has no part in what the block does (D27). -/

namespace Sys2Proof.Machine

/-- One line, with its numbers as written (R75, R76). -/
inductive AsmLine where
  /-- ENCODE cc, [p, ...] -/
  | encode (cc : Nat) (params : List Nat)
  /-- DECODE exp, [b, ...] -/
  | decode (exp : Nat) (raw : List Nat)
  /-- DECODE.MIN exp, [b, ...] -/
  | decodeMin (exp : Nat) (raw : List Nat)
  /-- ACKCHK [b, ...] -/
  | ackchk (read : List Nat)
  /-- DECODE.ANY [b, ...] (R76) -/
  | decodeAny (raw : List Nat)
  /-- REQ ctrl, cc, exp, [b, ...] (R76) -/
  | req (ctrl cc exp : Nat) (data : List Nat)
  deriving DecidableEq, Repr

/-- A number that fits an 8-bit field (R75). -/
def byteOfNumber (n : Nat) : Option Byte := if n < 256 then some (BitVec.ofNat 8 n) else none

/-- The fields of a request, where each number fits its field and the list fits DLEN (R75). -/
def requestOfNumbers (ctrl cc exp : Nat) (data : List Nat) : Option Request :=
  match byteOfNumber ctrl, byteOfNumber cc, byteOfNumber exp, data.mapM byteOfNumber with
  | some c, some k, some e, some d => if fitsDlen d then some { ctrl := c, cc := k, exp := e, data := d } else none
  | _, _, _, _ => none

/-- The request a line stands for: 0 in every field its mnemonic does not take (R75); DECODE.ANY is DECODE.MIN 0 and REQ
writes its fields verbatim (R76). -/
def AsmLine.assemble : AsmLine → Option Request
  | .encode cc params => requestOfNumbers 0x01 cc 0 params
  | .decode exp raw => requestOfNumbers 0x02 0 exp raw
  | .decodeMin exp raw => requestOfNumbers 0x06 0 exp raw
  | .ackchk read => requestOfNumbers 0x03 0 0 read
  | .decodeAny raw => requestOfNumbers 0x06 0 0 raw
  | .req ctrl cc exp data => requestOfNumbers ctrl cc exp data

/-- The bytes a line lists. -/
def AsmLine.listed : AsmLine → List Nat
  | .encode _ params => params
  | .decode _ raw => raw
  | .decodeMin _ raw => raw
  | .ackchk read => read
  | .decodeAny raw => raw
  | .req _ _ _ data => data

/-- Every number a line holds: those before its list, and those in it. -/
def AsmLine.numbers : AsmLine → List Nat
  | .encode cc params => cc :: params
  | .decode exp raw => exp :: raw
  | .decodeMin exp raw => exp :: raw
  | .ackchk read => read
  | .decodeAny raw => raw
  | .req ctrl cc exp data => ctrl :: cc :: exp :: data

/-- The pieces a line is read as. -/
inductive Token where
  | word (chars : List Char)
  | comma
  | listBegin
  | listEnd
  deriving DecidableEq, Repr

/-- The characters that only separate pieces (assumption 14). -/
def isBlank (c : Char) : Bool := c == ' ' || c == '\t' || c == '\r'

/-- A finished word, if there is one, before the pieces that follow it. -/
def pushWord (revChars : List Char) (rest : List Token) : List Token :=
  match revChars with
  | [] => rest
  | _ :: _ => .word revChars.reverse :: rest

/-- A line's pieces; `;` begins a comment (R75). -/
def tokens (revChars : List Char) : List Char → List Token
  | [] => pushWord revChars []
  | c :: cs =>
    if c == ';' then pushWord revChars []
    else if isBlank c then pushWord revChars (tokens [] cs)
    else if c == ',' then pushWord revChars (.comma :: tokens [] cs)
    else if c == '[' then pushWord revChars (.listBegin :: tokens [] cs)
    else if c == ']' then pushWord revChars (.listEnd :: tokens [] cs)
    else tokens (c :: revChars) cs

/-- A digit's value in the base (assumption 14: hexadecimal digits in either case). -/
def digitValue (base : Nat) (c : Char) : Option Nat :=
  let v := if '0' ≤ c ∧ c ≤ '9' then c.toNat - '0'.toNat
    else if 'a' ≤ c ∧ c ≤ 'f' then c.toNat - 'a'.toNat + 10
    else if 'A' ≤ c ∧ c ≤ 'F' then c.toNat - 'A'.toNat + 10
    else base
  if v < base then some v else none

/-- The digits' value, after those already read. -/
def digitsValue (base acc : Nat) : List Char → Option Nat
  | [] => some acc
  | c :: cs =>
    match digitValue base c with
    | some d => digitsValue base (acc * base + d) cs
    | none => none

/-- A number: 0x and hexadecimal digits, or decimal digits (R75). -/
def numberOf : List Char → Option Nat
  | [] => none
  | '0' :: 'x' :: [] => none
  | '0' :: 'x' :: ds => digitsValue 16 0 ds
  | ds => digitsValue 10 0 ds

/-- The items of a list after its first bracket, down to the closing one, which ends the line (R75). -/
def listItems : List Token → Option (List Nat)
  | [.word w, .listEnd] => (numberOf w).map fun n => [n]
  | .word w :: .comma :: rest =>
    match numberOf w, listItems rest with
    | some n, some ns => some (n :: ns)
    | _, _ => none
  | _ => none

/-- A bracketed list; `[]` when empty (R75). -/
def listOf : List Token → Option (List Nat)
  | [.listBegin, .listEnd] => some []
  | .listBegin :: rest => listItems rest
  | _ => none

/-- A line of one number and a list. -/
def numberAndList (f : Nat → List Nat → AsmLine) : List Token → Option AsmLine
  | .word a :: .comma :: rest =>
    match numberOf a, listOf rest with
    | some n, some bs => some (f n bs)
    | _, _ => none
  | _ => none

/-- The operands of REQ: three numbers and a list (R76). -/
def reqOperands : List Token → Option AsmLine
  | .word a :: .comma :: .word b :: .comma :: .word c :: .comma :: rest =>
    match numberOf a, numberOf b, numberOf c, listOf rest with
    | some ctrl, some cc, some exp, some bs => some (.req ctrl cc exp bs)
    | _, _, _, _ => none
  | _ => none

/-- The line of a mnemonic and its operands. -/
def lineOfMnemonic (m : List Char) (ops : List Token) : Option AsmLine :=
  if m = "ENCODE".toList then numberAndList .encode ops
  else if m = "DECODE".toList then numberAndList .decode ops
  else if m = "DECODE.MIN".toList then numberAndList .decodeMin ops
  else if m = "ACKCHK".toList then (listOf ops).map .ackchk
  else if m = "DECODE.ANY".toList then (listOf ops).map .decodeAny
  else if m = "REQ".toList then reqOperands ops
  else none

/-- One line of text, where it holds a request. -/
def readLine (text : List Char) : Option AsmLine :=
  match tokens [] text with
  | .word m :: ops => lineOfMnemonic m ops
  | _ => none

/-- The request of one line of text (R75, R76). -/
def assembleLine (text : List Char) : Option Request :=
  match readLine text with
  | some l => l.assemble
  | none => none

/-- The requests of a whole text, one a line; lines with nothing but blanks and a comment hold none (R75). -/
def assembleLines : List (List Char) → Option (List Request)
  | [] => some []
  | l :: ls =>
    if tokens [] l = [] then assembleLines ls
    else
      match assembleLine l, assembleLines ls with
      | some q, some qs => some (q :: qs)
      | _, _ => none

/-- One hexadecimal digit. -/
def hexDigit (d : Nat) : Char := if d < 10 then Char.ofNat ('0'.toNat + d) else Char.ofNat ('A'.toNat + (d - 10))

/-- A number in one of R75's two notations: 0xNN, where two digits hold it, or decimal. -/
def numeral (hex : Bool) (n : Nat) : List Char :=
  if hex && decide (n < 256) then ['0', 'x', hexDigit (n / 16), hexDigit (n % 16)] else Nat.toDigits 10 n

/-- The notations of the numbers after the first `k`, where `hex` says for each place in a line whether 0xNN is meant. -/
def laterNotations (hex : Nat → Bool) (k : Nat) : Nat → Bool := fun i => hex (k + i)

/-- The items of a list as R75 writes them, separated by commas. -/
def itemsText (hex : Nat → Bool) : List Nat → List Char
  | [] => []
  | [n] => numeral (hex 0) n
  | n :: m :: ns => numeral (hex 0) n ++ ',' :: ' ' :: itemsText (laterNotations hex 1) (m :: ns)

/-- A bracketed list (R75). -/
def listText (hex : Nat → Bool) (ns : List Nat) : List Char := '[' :: (itemsText hex ns ++ [']'])

/-- A number before a list, with its comma (R75). -/
def operandText (hex : Bool) (n : Nat) : List Char := numeral hex n ++ [',', ' ']

/-- A line's mnemonic (R75, R76). -/
def AsmLine.mnemonic : AsmLine → List Char
  | .encode _ _ => "ENCODE".toList
  | .decode _ _ => "DECODE".toList
  | .decodeMin _ _ => "DECODE.MIN".toList
  | .ackchk _ => "ACKCHK".toList
  | .decodeAny _ => "DECODE.ANY".toList
  | .req _ _ _ _ => "REQ".toList

/-- What a line writes after its mnemonic (R75, R76). -/
def AsmLine.operandsText (hex : Nat → Bool) : AsmLine → List Char
  | .encode cc params => operandText (hex 0) cc ++ listText (laterNotations hex 1) params
  | .decode exp raw => operandText (hex 0) exp ++ listText (laterNotations hex 1) raw
  | .decodeMin exp raw => operandText (hex 0) exp ++ listText (laterNotations hex 1) raw
  | .ackchk read => listText hex read
  | .decodeAny raw => listText hex raw
  | .req ctrl cc exp data => operandText (hex 0) ctrl ++
      (operandText (hex 1) cc ++ (operandText (hex 2) exp ++ listText (laterNotations hex 3) data))

/-- A line as R75 and R76 write it; `hex` gives the notation of each number by its place in the line. -/
def AsmLine.text (hex : Nat → Bool) (l : AsmLine) : List Char := l.mnemonic ++ ' ' :: l.operandsText hex

end Sys2Proof.Machine
end

