-- ==== Sys2Proof/Machine/BlockFunction.lean ====
section
/-! DEFINITION. The block as one function F of the latched request and the build (R161), written from R161's own
pseudocode over the request's fields, apart from the decoder and `exec`: the statements compare the step with it. -/

namespace Sys2Proof.Machine

/-- The CTRL values of R62. -/
def ctrlMap : List Byte := [0x01#8, 0x02#8, 0x06#8, 0x03#8]

/-- EXPMIN as DECODE's length mode (R61, R113). -/
def expModeOf (ctrl : Byte) : ExpMode := if ctrlExpMin ctrl then .atLeast else .exact

/-- F (R161). -/
def blockFunction (b : Config.Build) (q : Request) : Response :=
  if b.dataMax < q.dlen then Response.error .badRequest
  else if q.ctrl ∉ ctrlMap then Response.error .badRequest
  else if ctrlOp q.ctrl = 0b01#2 then responseOf (encodeResult b q.cc q.data)
  else if ctrlOp q.ctrl = 0b10#2 then responseOf (decodeResult (expModeOf q.ctrl) q.exp q.data)
  else ackResult q.data

end Sys2Proof.Machine
end

