-- ==== Sys2Proof/Safety.lean ====
section
/-! DEFINITION. The invariant of the machine and what counts as a safe run. -/

namespace Sys2Proof.Machine

/-- A response the block can hold: at most 262 bytes (R28, R68), and all zero but STATUS when STATUS is not OK
(R69, R163). -/
def Response.wf (r : Response) : Bool :=
  decide (r.olen ≤ 262) && (decide (r.status = .ok) || decide (r = Response.error r.status))

/-- An event the requester can cause: it presents only requests the port can carry. -/
def Event.wf : Event → Bool
  | .submit q => q.wf
  | .collect => true
  | .reset => true
  | .compute => true
  | .stay => true

/-- The invariant: the build is in range (R9, R10), REQ_L holds a request exactly in BUSY (R23) and RSP_L a response
exactly in DONE (R24), and what they hold is well formed (R28, R163), as is all the requester still presents. -/
abbrev State.Inv (s : State) : Prop :=
  s.build.wf = true ∧
  (s.reqL.isSome = true ↔ s.phase = .busy) ∧
  (s.rspL.isSome = true ↔ s.phase = .done) ∧
  s.reqL.all Request.wf = true ∧
  s.rspL.all Response.wf = true ∧
  s.events.all Event.wf = true

/-- k steps of the machine, stopping at the first fault or refusal: the host's run of the core, at the machine's own
types. -/
def run : Nat → State → Result
  | 0, s => .next s
  | k + 1, s =>
    match step s with
    | .next t => run k t
    | .fault r => .fault r
    | .refused r => .refused r

/-- A safe run: it never stops, and the invariant holds all along (R161, R164: F is total and nothing halts). -/
def Safe (s : State) : Prop :=
  ∀ k : Nat, ∃ t : State, run k s = .next t ∧ t.Inv

end Sys2Proof.Machine
end

