-- ==== Sys2Proof/Certificates/Slice0/Obligations.lean ====
section
/-! DEFINITION. The statements for the provers. R<n> are the spec's numbered rules; "log n" is notes/assumptions/n.md. -/

open Sys2Proof Sys2Proof.Machine

/-! ### The requests, frames and observations the statements speak of -/

/-- The request `ENCODE cc, params` (R75). -/
def Sys2Proof.Machine.encodeRequestOf (cc : Byte) (params : List Byte) : Request :=
  { ctrl := 0x01#8, cc := cc, exp := 0x00#8, data := params }

/-- The request `DECODE exp, raw` (R75). -/
def Sys2Proof.Machine.decodeRequestOf (exp : Byte) (raw : List Byte) : Request :=
  { ctrl := 0x02#8, cc := 0x00#8, exp := exp, data := raw }

/-- The request `DECODE.MIN exp, raw` (R75). -/
def Sys2Proof.Machine.decodeMinRequestOf (exp : Byte) (raw : List Byte) : Request :=
  { ctrl := 0x06#8, cc := 0x00#8, exp := exp, data := raw }

/-- The request `DECODE.ANY raw` (R76). -/
def Sys2Proof.Machine.decodeAnyRequestOf (raw : List Byte) : Request := decodeMinRequestOf 0x00#8 raw

/-- The request `ACKCHK read` (R75). -/
def Sys2Proof.Machine.ackchkRequestOf (read : List Byte) : Request :=
  { ctrl := 0x03#8, cc := 0x00#8, exp := 0x00#8, data := read }

/-- The steps of DECODE (R110) as a table: whether each fails, and the status it raises; `meets` is step 8's test. -/
def Sys2Proof.Machine.decodeSteps (meets : Nat → Bool) (raw : List Byte) : List (Bool × Status) :=
  let len := (byteAt raw 3).toNat
  [(decide (raw.length < 5), .lengthMismatch),
   (decide (byteAt raw 1 ≠ 0x00#8 ∨ byteAt raw 2 ≠ 0xFF#8), .badMarker),
   (decide (((byteAt raw 3).toNat + (byteAt raw 4).toNat) % 256 ≠ 0), .badChecksum),
   (decide (len < 2), .lengthMismatch),
   (decide (raw.length < len + 7), .lengthMismatch),
   (decide (byteSum (slice raw 5 (6 + len)) % 256 ≠ 0), .badChecksum),
   (decide (byteAt raw (6 + len) ≠ 0x00#8), .badMarker),
   (!meets (len - 2), .lengthMismatch)]

/-- The response of DECODE by that table: the first failing step decides the status (R110, R165). -/
def Sys2Proof.Machine.decodeBySteps (meets : Nat → Bool) (raw : List Byte) : Response :=
  match (decodeSteps meets raw).find? (·.1) with
  | some (_, st) => { status := st, ack := false, tfi := 0x00#8, code := 0x00#8, odata := [] }
  | none =>
    { status := .ok, ack := false, tfi := byteAt raw 5, code := byteAt raw 6,
      odata := slice raw 7 (5 + (byteAt raw 3).toNat) }

/-- CTRL is a reserved encoding, by the three classes of R64. -/
def Sys2Proof.Machine.reservedCtrl (c : Byte) : Prop :=
  ctrlOp c = 0b00#2 ∨ (ctrlExpMin c = true ∧ ctrlOp c ≠ 0b10#2) ∨ ctrlReserved c ≠ 0b00000#5

/-- The requests presented among events, oldest first. -/
def Sys2Proof.Machine.presented (es : List Event) : List Request :=
  es.filterMap fun e => match e with
    | .submit q => some q
    | .collect => none
    | .reset => none
    | .compute => none
    | .stay => none

/-- The responses among replies, oldest first. -/
def Sys2Proof.Machine.delivered (rs : List Reply) : List Response :=
  rs.filterMap fun r => match r with
    | .accepted => none
    | .held => none
    | .response x => some x

/-- One request served: submit, a finite stay in BUSY, compute, a finite stay in DONE, collect. -/
def Sys2Proof.Machine.serviceOf (x : Request × Nat × Nat) : List Event :=
  [.submit x.1] ++ List.replicate x.2.1 .stay ++ [.compute] ++ List.replicate x.2.2 .stay ++ [.collect]

/-- The assembler line of an instruction (R75). -/
def Sys2Proof.Machine.lineOf : Instr → AsmLine
  | .encode cc params => .encode cc.toNat (params.map BitVec.toNat)
  | .decode exp raw => .decode exp.toNat (raw.map BitVec.toNat)
  | .decodeMin exp raw => .decodeMin exp.toNat (raw.map BitVec.toNat)
  | .ackchk read => .ackchk (read.map BitVec.toNat)

/-! ### Reset and the handshake -/

/-- R30, R190: what reset leaves; the build is not touched (the update names three fields and no other). -/
def Obligations.ResetLeavesIdleAndEmpty : Prop :=
  State.reset.phase = .idle ∧ State.reset.reqL = none ∧ State.reset.rspL = none ∧
  ∀ s : State, s.resetBlock = { s with phase := .idle, reqL := none, rspL := none }

/-- R9, R10: the parameters' defaults and ranges, and what each bounds. (Which build `State.reset` holds is log 5, and no
part of this.) -/
def Obligations.BuildParametersBoundTheirOperations : Prop :=
  Config.Build.default = { maxParams := 253, dataMax := 262 } ∧
  (∀ b : Config.Build, b.wf = true ↔ b.maxParams ≤ 253 ∧ 262 ≤ b.dataMax ∧ b.dataMax ≤ 511) ∧
  (∀ (b : Config.Build) (cc : Byte) (params : List Byte), params.length ≤ b.dataMax →
    ((blockFunction b (encodeRequestOf cc params)).status = .ok ↔ params.length ≤ b.maxParams)) ∧
  (∀ (b : Config.Build) (q : Request), q.ctrl ∈ ctrlMap →
    ((blockFunction b q).status = .badRequest ↔ b.dataMax < q.dlen))

/-- R193: submit latches in IDLE and has no move in any other phase. -/
def Obligations.SubmitLatchesInIdleAndIsHeldElsewhere : Prop :=
  ∀ (s : State) (q : Request),
    (s.phase = .idle → s.submit q = (.accepted, { s with reqL := some q, phase := .busy })) ∧
    (s.phase ≠ .idle → s.submit q = (.held, s))

/-- R194: collect hands over the whole response in DONE and has no move in any other phase. -/
def Obligations.CollectHandsOverInDoneAndIsHeldElsewhere : Prop :=
  ∀ s : State,
    (∀ r : Response, s.phase = .done → s.rspL = some r →
      s.collect = (.response r, { s with rspL := none, phase := .idle })) ∧
    (s.phase ≠ .done → s.collect = (.held, s))

/-- The model's schedule (log 1, 2, 3, 4 and 18, DESIGN CHOICE): a step uses up the oldest event and does what it says, and
with no event left the block computes. -/
def Obligations.StepDoesTheOldestEvent : Prop :=
  ∀ (s : State) (rest : List Event),
    (∀ q, s.events = .submit q :: rest →
      step s = .next
        { (State.submit { s with events := rest } q).2 with
            replies := s.replies ++ [(State.submit { s with events := rest } q).1] }) ∧
    (s.events = .collect :: rest →
      step s = .next
        { (State.collect { s with events := rest }).2 with
            replies := s.replies ++ [(State.collect { s with events := rest }).1] }) ∧
    (s.events = .reset :: rest →
      step s = .next { s with events := rest, phase := .idle, reqL := none, rspL := none }) ∧
    (s.events = .compute :: rest → step s = compute { s with events := rest }) ∧
    (s.events = .stay :: rest → step s = .next { s with events := rest }) ∧
    (s.events = [] → step s = compute s)

/-- R196, R165: a compute step on a request within DATA_MAX that decodes to an instruction is `exec` of it; the schedule's
part (log 1, 4) is only which event is used up. -/
def Obligations.StepRunsTheDecodedInstruction : Prop :=
  ∀ (s : State) (q : Request) (i : Instr) (rest : List Event),
    s.phase = .busy → s.reqL = some q → q.dlen ≤ s.build.dataMax → decodeRequest q = .ok i →
    (s.events = .compute :: rest → step s = exec i { s with events := rest }) ∧
    (s.events = [] → step s = exec i s)

/-- Log 10, 11 (DESIGN CHOICE): after `withFetchWord` the very next step executes the table word's instruction. -/
def Obligations.FetchedWordIsExecutedNext : Prop :=
  ∀ (s : State) (nbits w : Nat) (i : Instr), decodeTableWord nbits w = some i →
    step (s.withFetchWord nbits w) = exec i { s with phase := .busy, reqL := some (tableRequest nbits w), rspL := none }

/-- R161, R196: the compute step, through the decoder and `exec`, answers F of the latched request and the build:
RSP_L <- F(q), REQ_L <- none, PHASE <- DONE, and nothing else changes. -/
def Obligations.ComputeAnswersTheBlockFunction : Prop :=
  ∀ (s : State) (q : Request), s.phase = .busy → s.reqL = some q →
    compute s = .next { s with phase := .done, reqL := none, rspL := some (blockFunction s.build q) }

/-- R172: in IDLE nothing changes but by a submit or a reset, whatever else the schedule (log 1) holds. -/
def Obligations.IdleChangesOnlyBySubmitOrReset : Prop :=
  ∀ s t : State, s.phase = .idle → (∀ q, s.events.head? ≠ some (.submit q)) → s.events.head? ≠ some .reset →
    step s = .next t → t.phase = .idle ∧ t.reqL = s.reqL ∧ t.rspL = s.rspL ∧ t.build = s.build

/-- R22 (the schedule is log 1): PHASE moves only IDLE to BUSY by a submit, BUSY to DONE by computing, DONE to IDLE by a
collect, and to IDLE by a reset. -/
def Obligations.PhaseMovesOnlyAlongTheHandshake : Prop :=
  ∀ s t : State, step s = .next t →
    t.phase = s.phase ∨
    (s.phase = .idle ∧ t.phase = .busy ∧ ∃ q, s.events.head? = some (.submit q)) ∨
    (s.phase = .busy ∧ t.phase = .done ∧ (s.events = [] ∨ s.events.head? = some .compute)) ∨
    (s.phase = .done ∧ t.phase = .idle ∧ s.events.head? = some .collect) ∨
    (t.phase = .idle ∧ s.events.head? = some .reset)

/-- R23, R24 (the schedule is log 1): REQ_L is filled only by a submit and emptied only by computing or a reset; RSP_L is
filled only by computing, with F of the latched request, and emptied only by a collect or a reset. -/
def Obligations.LatchesChangeOnlyByTheirTransitions : Prop :=
  ∀ s t : State, s.Inv → step s = .next t →
    (t.reqL ≠ s.reqL →
      (∃ q, s.phase = .idle ∧ s.events.head? = some (.submit q) ∧ t.reqL = some q) ∨
      (s.phase = .busy ∧ t.reqL = none ∧
        (s.events = [] ∨ s.events.head? = some .compute ∨ s.events.head? = some .reset))) ∧
    (t.rspL ≠ s.rspL →
      (∃ q, s.phase = .busy ∧ s.reqL = some q ∧ (s.events = [] ∨ s.events.head? = some .compute) ∧
        t.rspL = some (blockFunction s.build q)) ∨
      (s.phase = .done ∧ t.rspL = none ∧
        (s.events.head? = some .collect ∨ s.events.head? = some .reset)))

/-- R26: MAX_PARAMS and DATA_MAX are configuration; no run writes them. -/
def Obligations.BuildIsNeverWritten : Prop :=
  ∀ (k : Nat) (s t : State), run k s = .next t → t.build = s.build

/-- R196's fairness, as the model has it (log 4, DESIGN CHOICE): BUSY is left within one step more than the events that
are still to come. -/
def Obligations.BusyIsLeftInFinitelyManySteps : Prop :=
  ∀ s : State, s.Inv → s.phase = .busy →
    ∃ k t, k ≤ s.events.length + 1 ∧ run k s = .next t ∧ t.phase ≠ .busy

/-- R191: a request lost to a reset in BUSY, or its response lost to one in DONE, gets the same response when it is
submitted again. -/
def Obligations.ResubmissionAfterResetGivesTheLostResponse : Prop :=
  ∀ (s : State) (q : Request), s.phase = .busy → s.reqL = some q → s.rspL = none →
    ∃ t : State, compute s = .next t ∧ t.phase = .done ∧
      (s.resetBlock.reqL = none ∧ t.resetBlock.rspL = none) ∧
      (s.resetBlock.submit q).1 = .accepted ∧ compute (s.resetBlock.submit q).2 = .next t ∧
      (t.resetBlock.submit q).1 = .accepted ∧ compute (t.resetBlock.submit q).2 = .next t

/-- R31 (observed through the replies, log 3): the latched request is never observable but through its response: two runs
that differ only in it, with equal responses, show the requester the same. -/
def Obligations.LatchedRequestShowsOnlyThroughItsResponse : Prop :=
  ∀ (s : State) (q q' : Request), s.phase = .busy → s.reqL = some q →
    blockFunction s.build q = blockFunction s.build q' →
    ∀ k : Nat, ∃ t t' : State, run k s = .next t ∧
      run k { s with reqL := some q' } = .next t' ∧
      t'.replies = t.replies ∧ t'.phase = t.phase

/-- R46 (any schedule, log 1, with held attempts and resets in it): the responses collected in a run that starts in IDLE are
F of requests presented in it, in the same order. -/
def Obligations.CollectedResponsesAreInSubmissionOrder : Prop :=
  ∀ (k : Nat) (s t : State), s.Inv → s.phase = .idle → run k s = .next t →
    ∃ qs : List Request, qs.Sublist (presented (s.events.take k)) ∧
      delivered t.replies = delivered s.replies ++ qs.map (blockFunction s.build)

/-- R46, R196 (as a schedule, log 1, 3 and 4): requests served one after another, with any finite stays, are each accepted
and each answered with F of it, and the block is IDLE again. -/
def Obligations.EveryServedRequestIsAnswered : Prop :=
  ∀ (s : State) (xs : List (Request × Nat × Nat)), s.phase = .idle → s.reqL = none → s.rspL = none →
    s.events = xs.flatMap serviceOf →
    run s.events.length s =
      .next { s with
        events := []
        replies := s.replies ++ xs.flatMap fun x => [.accepted, .response (blockFunction s.build x.1)] }

/-! ### The invariant -/

/-- The machine after reset meets the invariant. -/
def Obligations.ResetMeetsTheInvariant : Prop := State.reset.Inv

/-- R9, R10, R23, R24, R28, R163: every step keeps the invariant. -/
def Obligations.EveryStepKeepsTheInvariant : Prop :=
  ∀ s t : State, s.Inv → step s = .next t → t.Inv

/-- R161, R164: from every state that meets the invariant no run ever stops, and the invariant holds all along. -/
def Obligations.EveryRunIsSafe : Prop := ∀ s : State, s.Inv → Safe s

/-- R161, R164: every step of every state answers a next state. -/
def Obligations.EveryStepAnswersANextState : Prop := ∀ s : State, ∃ t, step s = .next t

/-! ### Encodings -/

/-- R62: the four CTRL values and the operands their instructions take; R64: every other value is rejected. -/
def Obligations.ControlByteSelectsTheInstruction : Prop :=
  ∀ q : Request,
    (q.ctrl = 0x01#8 → decodeRequest q = .ok (.encode q.cc q.data)) ∧
    (q.ctrl = 0x02#8 → decodeRequest q = .ok (.decode q.exp q.data)) ∧
    (q.ctrl = 0x06#8 → decodeRequest q = .ok (.decodeMin q.exp q.data)) ∧
    (q.ctrl = 0x03#8 → decodeRequest q = .ok (.ackchk q.data)) ∧
    (q.ctrl ∉ [0x01#8, 0x02#8, 0x06#8, 0x03#8] → ∃ r, decodeRequest q = .error r)

/-- The CTRL bits of the table words are the spec's (R61, R62: bits 7:3 reserved, bit 2 EXPMIN, bits 1:0 OP); the operands
of the decoded instructions (CC and EXP 0, DATA empty) are log 11's, DESIGN CHOICE, since a table word gives CTRL alone. -/
def Obligations.TableWordsDecodeToTheirRows : Prop :=
  decodeTableWord 8 0b00000001 = some (.encode 0x00#8 []) ∧
  decodeTableWord 8 0b00000010 = some (.decode 0x00#8 []) ∧
  decodeTableWord 8 0b00000110 = some (.decodeMin 0x00#8 []) ∧
  decodeTableWord 8 0b00000011 = some (.ackchk []) ∧
  decodeTableWord 8 0b00000000 = none ∧ decodeTableWord 8 0b00000111 = none

/-- R62, R66: decoding an encoded instruction gives it back; encoding a decoded one gives the request back but for the
fields its operation ignores, and so the same response. -/
def Obligations.DecodingAndEncodingAgree : Prop :=
  (∀ i : Instr, i.wf = true → (encodeRequest i).wf = true ∧ decodeRequest (encodeRequest i) = .ok i) ∧
  (∀ (q : Request) (i : Instr), q.wf = true → decodeRequest q = .ok i →
    i.wf = true ∧ (encodeRequest i).ctrl = q.ctrl ∧ (encodeRequest i).data = q.data ∧
    ∀ b : Config.Build, blockFunction b (encodeRequest i) = blockFunction b q)

/-- R64, R65: a reserved CTRL, or a DLEN past DATA_MAX whatever CTRL is, is answered BAD_REQUEST and nothing else. -/
def Obligations.ReservedOrOversizeIsBadRequest : Prop :=
  (∀ c : Byte, reservedCtrl c ↔ c ∉ [0x01#8, 0x02#8, 0x06#8, 0x03#8]) ∧
  ∀ (s : State) (q : Request), s.phase = .busy → s.reqL = some q →
    (s.build.dataMax < q.dlen ∨ reservedCtrl q.ctrl) →
    compute s = .next { s with
      phase := .done
      reqL := none
      rspL := some { status := .badRequest, ack := false, tfi := 0x00#8, code := 0x00#8, odata := [] } }

/-- R66: changing an ignored field never changes the response. -/
def Obligations.IgnoredFieldsNeverChangeTheResponse : Prop :=
  ∀ (b : Config.Build) (q : Request) (cc exp : Byte),
    (q.ctrl = 0x03#8 → blockFunction b { q with cc := cc, exp := exp } = blockFunction b q) ∧
    (q.ctrl = 0x02#8 ∨ q.ctrl = 0x06#8 → blockFunction b { q with cc := cc } = blockFunction b q) ∧
    (q.ctrl = 0x01#8 → blockFunction b { q with exp := exp } = blockFunction b q)

/-- R75, R76, of abstract lines (the text is `LineTextIsReadAsItsLine`): a line's request is its instruction's, DECODE.ANY
is DECODE.MIN 0, REQ spells every request the port can carry, and a line of any form is refused exactly when one of its
numbers does not fit 8 bits or its list does not fit DLEN. -/
def Obligations.AssembledLinesAreTheirRequests : Prop :=
  (∀ i : Instr, i.wf = true → (lineOf i).assemble = some (encodeRequest i)) ∧
  (∀ raw : List Nat, (AsmLine.decodeAny raw).assemble = (AsmLine.decodeMin 0 raw).assemble) ∧
  (∀ q : Request, q.wf = true →
    (AsmLine.req q.ctrl.toNat q.cc.toNat q.exp.toNat (q.data.map BitVec.toNat)).assemble = some q) ∧
  (∀ l : AsmLine, l.assemble = none ↔ (∃ n ∈ l.numbers, 256 ≤ n) ∨ 511 < l.listed.length)

/-- R75, R76, of the text of a line in the spelling of `AsmLine.text` (its blanks are log 14), each number of the line in
either notation: with and without a comment it is read as that line, whether or not its numbers fit, and assembles as that
line does. The model's own, DESIGN CHOICE, are: that lines are assembled together and one that is refused refuses them all (log 20); that a
line of only a comment holds no request, and that a mnemonic in any other spelling, small letters included, is none
(log 14). That there are no mnemonics beside R75's and R76's is R76's. -/
def Obligations.LineTextIsReadAsItsLine : Prop :=
  (∀ (hex : Nat → Bool) (l : AsmLine) (comment : List Char),
    readLine (l.text hex) = some l ∧ readLine (l.text hex ++ ';' :: comment) = some l ∧
    assembleLine (l.text hex ++ ';' :: comment) = l.assemble) ∧
  (∀ ls : List ((Nat → Bool) × AsmLine),
    assembleLines (ls.map fun x => x.2.text x.1) = ls.mapM fun x => x.2.assemble) ∧
  (∀ (comment : List Char) (ls : List (List Char)), assembleLines ((';' :: comment) :: ls) = assembleLines ls) ∧
  (∀ (m : List Char) (ops : List Token),
    m ∉ ["ENCODE".toList, "DECODE".toList, "DECODE.MIN".toList, "ACKCHK".toList, "DECODE.ANY".toList, "REQ".toList] →
    lineOfMnemonic m ops = none)

/-! ### Checksums -/

/-- R100, R101: neg8 is 256 - v modulo 256, sum8 is the sum modulo 256, and the LCS of an emitted length is 256 - L. -/
def Obligations.ChecksumArithmeticIsModulo256 : Prop :=
  (∀ v : Byte, (neg8 v).toNat = (256 - v.toNat) % 256) ∧
  sum8 [] = 0x00#8 ∧
  (∀ (v : Byte) (s : List Byte), (sum8 (v :: s)).toNat = (v.toNat + byteSum s) % 256) ∧
  (∀ len : Byte, lcs len = neg8 len ∧ (len.toNat + (lcs len).toNat) % 256 = 0) ∧
  (∀ len : Byte, 2 ≤ len.toNat → (lcs len).toNat = 256 - len.toNat)

/-- The two identities of R103 on a frame's bytes: LEN + LCS, and TFI + PD + DCS. -/
def Sys2Proof.Machine.meetsIdentities (f : List Byte) : Prop :=
  byteSum (slice f 3 5) % 256 = 0 ∧ byteSum (slice f 5 (6 + (byteAt f 3).toNat)) % 256 = 0

/-- R103: the two checksum identities, over the unbounded sums; every frame emitted or accepted meets both. -/
def Obligations.ChecksumIdentitiesHold : Prop :=
  (∀ len : Byte, (len.toNat + (lcs len).toNat) % 256 = 0) ∧
  (∀ (tfi : Byte) (pd : List Byte), (tfi.toNat + byteSum pd + (dcs tfi pd).toNat) % 256 = 0) ∧
  (∀ (b : Config.Build) (cc : Byte) (params : List Byte) (r : Response), b.wf = true →
    encodeResult b cc params = .ok r → meetsIdentities r.odata) ∧
  (∀ (mode : ExpMode) (exp : Byte) (raw : List Byte) (r : Response),
    decodeResult mode exp raw = .ok r → meetsIdentities raw)

/-! ### ENCODE -/

/-- R104: ENCODE's response, and CONTRACT_VIOLATION past MAX_PARAMS, for every command code and parameters. -/
def Obligations.EncodeAnswersTheFrameOrViolation : Prop :=
  ∀ (s : State) (cc : Byte) (params : List Byte),
    (params.length ≤ s.build.maxParams →
      exec (.encode cc params) s = .next { s with
        phase := .done
        reqL := none
        rspL := some {
          status := .ok, ack := false, tfi := 0x00#8, code := 0x00#8
          odata := [0x00#8, 0x00#8, 0xFF#8, BitVec.ofNat 8 (params.length + 2),
              neg8 (BitVec.ofNat 8 (params.length + 2)), 0xD4#8] ++ ([cc] ++ params) ++
            [neg8 (sum8 ([0xD4#8] ++ ([cc] ++ params))), 0x00#8] } }) ∧
    (s.build.maxParams < params.length →
      exec (.encode cc params) s = .next { s with
        phase := .done
        reqL := none
        rspL := some { status := .contractViolation, ack := false, tfi := 0x00#8, code := 0x00#8, odata := [] } })

/-- R106: ENCODE requests with equal CC and DATA give byte-identical frames, whatever else the requests hold. -/
def Obligations.EqualEncodeRequestsGiveIdenticalFrames : Prop :=
  ∀ (b : Config.Build) (q q' : Request), q.ctrl = 0x01#8 → q'.ctrl = 0x01#8 → q.cc = q'.cc → q.data = q'.data →
    (blockFunction b q).odata = (blockFunction b q').odata

/-- R70, R71, R73: the layout of every frame ENCODE emits, index by index. -/
def Obligations.EmittedFrameHasTheWireLayout : Prop :=
  ∀ (b : Config.Build) (cc : Byte) (params : List Byte), b.wf = true → params.length ≤ b.maxParams →
    ∃ f : List Byte, (blockFunction b (encodeRequestOf cc params)).odata = f ∧
      let len := params.length + 2
      2 ≤ len ∧ len ≤ 255 ∧ f.length = len + 7 ∧
      f[0]? = some 0x00#8 ∧ f[1]? = some 0x00#8 ∧ f[2]? = some 0xFF#8 ∧
      (f[3]?).map BitVec.toNat = some len ∧ f[4]? = some (neg8 (BitVec.ofNat 8 len)) ∧
      f[5]? = some 0xD4#8 ∧ f[6]? = some cc ∧ (∀ j, j < params.length → f[7 + j]? = params[j]?) ∧
      f[5 + len]? = some (neg8 (sum8 (0xD4#8 :: cc :: params))) ∧ f[6 + len]? = some 0x00#8 ∧
      byteSum (slice f 3 5) % 256 = 0 ∧ byteSum (slice f 5 (6 + len)) % 256 = 0

/-! ### DECODE -/

/-- R110: DECODE and DECODE.MIN answer by the eight steps, in order, for every input. -/
def Obligations.DecodeAnswersByTheFirstFailingStep : Prop :=
  ∀ (s : State) (exp : Byte) (raw : List Byte),
    exec (.decode exp raw) s = .next { s with
      phase := .done, reqL := none, rspL := some (decodeBySteps (fun k => decide (k = exp.toNat)) raw) } ∧
    exec (.decodeMin exp raw) s = .next { s with
      phase := .done, reqL := none, rspL := some (decodeBySteps (fun k => decide (exp.toNat ≤ k)) raw) }

/-- R70, R110 to R114: DECODE accepts exactly the frames of R70 with any PREAMBLE, any TFI and any bytes after the
POSTAMBLE, whose parameter count meets EXP, and answers what they hold. -/
def Obligations.DecodeAcceptsExactlyTheWireFrames : Prop :=
  ∀ (mode : ExpMode) (exp : Byte) (raw : List Byte) (r : Response),
    decodeResult mode exp raw = .ok r ↔
      ∃ (pre tfi code : Byte) (params tail : List Byte),
        params.length ≤ 253 ∧
        raw = [pre, 0x00#8, 0xFF#8, BitVec.ofNat 8 (params.length + 2),
            neg8 (BitVec.ofNat 8 (params.length + 2)), tfi] ++ (code :: params) ++
          [neg8 (sum8 (tfi :: code :: params)), 0x00#8] ++ tail ∧
        (match mode with
          | .exact => params.length = exp.toNat
          | .atLeast => exp.toNat ≤ params.length) ∧
        r = { status := .ok, ack := false, tfi := tfi, code := code, odata := params }

/-- R113: on a good frame EXP alone decides: equal for DECODE, at least for DECODE.MIN, else LENGTH_MISMATCH. -/
def Obligations.ExpectedLengthDecidesOnAGoodFrame : Prop :=
  ∀ (b : Config.Build) (exp tfi code : Byte) (params : List Byte), b.wf = true → params.length ≤ 253 →
    let good : Response := { status := .ok, ack := false, tfi := tfi, code := code, odata := params }
    let bad : Response := { status := .lengthMismatch, ack := false, tfi := 0x00#8, code := 0x00#8, odata := [] }
    blockFunction b (decodeRequestOf exp (frame tfi (code :: params))) =
      (if params.length = exp.toNat then good else bad) ∧
    blockFunction b (decodeMinRequestOf exp (frame tfi (code :: params))) =
      (if exp.toNat ≤ params.length then good else bad)

/-- R112: index 0 is not checked, and a frame behind a transport status byte fails, BAD_MARKER, since nothing is searched
for or skipped. -/
def Obligations.DecodeInputStartsAtThePreamble : Prop :=
  ∀ (mode : ExpMode) (exp p p' : Byte) (rest : List Byte),
    decodeResult mode exp (p :: rest) = decodeResult mode exp (p' :: rest) ∧
    ∀ (tfi : Byte) (pd tail : List Byte),
      decodeResult mode exp (p :: (frame tfi pd ++ tail)) = .error .badMarker

/-- R114: the bytes after the POSTAMBLE do not affect the response. -/
def Obligations.BytesAfterThePostambleAreIgnored : Prop :=
  ∀ (mode : ExpMode) (exp : Byte) (raw tail tail' : List Byte), (byteAt raw 3).toNat + 7 ≤ raw.length →
    decodeResult mode exp (raw ++ tail) = decodeResult mode exp (raw ++ tail')

/-- R116: the round trip, through F, in every build: the request is never refused and gives the parameters back. -/
def Obligations.DecodeUndoesEncode : Prop :=
  ∀ (b : Config.Build) (cc : Byte) (params : List Byte), b.wf = true → params.length ≤ b.maxParams →
    ∃ f : List Byte, (blockFunction b (encodeRequestOf cc params)).odata = f ∧
      f.length = params.length + 9 ∧ f.length ≤ 262 ∧ f.length ≤ b.dataMax ∧
      blockFunction b (decodeRequestOf (BitVec.ofNat 8 params.length) f) =
        { status := .ok, ack := false, tfi := 0xD4#8, code := cc, odata := params }

/-- R117: which single changed byte of a valid frame DECODE.ANY detects and how, and that two compensating changes of the
checked bytes pass. -/
def Obligations.TamperedFrameIsDetected : Prop :=
  ∀ (b : Config.Build) (tfi code : Byte) (params : List Byte), b.wf = true → params.length ≤ 253 →
    let f := frame tfi (code :: params)
    let len := params.length + 2
    (∀ (i : Nat) (v : Byte), i < f.length → f[i]? ≠ some v →
      let r := blockFunction b (decodeAnyRequestOf (f.set i v))
      (i = 0 → r = blockFunction b (decodeAnyRequestOf f)) ∧
      (i = 1 ∨ i = 2 → r = Response.error .badMarker) ∧
      (i = 3 ∨ i = 4 → r = Response.error .badChecksum) ∧
      (5 ≤ i → i ≤ 5 + len → r = Response.error .badChecksum) ∧
      (i = 6 + len → r = Response.error .badMarker)) ∧
    (∀ (i j : Nat) (d : Byte), 5 ≤ i → i < j → j ≤ 5 + len →
      (blockFunction b (decodeAnyRequestOf
        ((f.set i (byteAt f i + d)).set j (byteAt f j - d)))).status = .ok)

/-- R118: the acknowledge pattern, and its sibling with the two bytes swapped, are no frames: BAD_CHECKSUM. -/
def Obligations.AcknowledgePatternIsNoFrame : Prop :=
  ∀ (b : Config.Build) (exp : Byte), b.wf = true →
    ∀ raw ∈ [[0x00#8, 0x00#8, 0xFF#8, 0x00#8, 0xFF#8, 0x00#8], [0x00#8, 0x00#8, 0xFF#8, 0xFF#8, 0x00#8, 0x00#8]],
      blockFunction b (decodeRequestOf exp raw) = Response.error .badChecksum ∧
      blockFunction b (decodeMinRequestOf exp raw) = Response.error .badChecksum

/-! ### ACKCHK -/

/-- R140 to R143: ACKCHK completes on every input with STATUS OK, and ACK is 1 exactly when a status byte, the pattern and
then anything were read. -/
def Obligations.AckVerdictIsThePatternAtOffsetOne : Prop :=
  ∀ (s : State) (read : List Byte), ∃ ack : Bool,
    exec (.ackchk read) s = .next { s with
      phase := .done
      reqL := none
      rspL := some { status := .ok, ack := ack, tfi := 0x00#8, code := 0x00#8, odata := [] } } ∧
    (ack = true ↔ ∃ (status : Byte) (tail : List Byte),
      read = [status, 0x00#8, 0x00#8, 0xFF#8, 0x00#8, 0xFF#8, 0x00#8] ++ tail)

/-- R144: behind a status byte, no frame ENCODE emits and no frame DECODE accepts is taken for an acknowledge. -/
def Obligations.NoFrameIsTakenForAnAcknowledge : Prop :=
  ∀ (b : Config.Build) (status : Byte), b.wf = true →
    (∀ (cc : Byte) (params : List Byte), params.length ≤ b.maxParams →
      (blockFunction b (ackchkRequestOf
        (status :: (blockFunction b (encodeRequestOf cc params)).odata))).ack = false) ∧
    (∀ (exp : Byte) (raw : List Byte),
      (blockFunction b (decodeRequestOf exp raw)).status = .ok ∨
        (blockFunction b (decodeMinRequestOf exp raw)).status = .ok →
      (blockFunction b (ackchkRequestOf (status :: raw))).ack = false)

/-! ### Responses -/

/-- R163, R69: a response whose STATUS is not OK is all zero but STATUS. -/
def Obligations.ErrorResponsesAreZeroButStatus : Prop :=
  ∀ (b : Config.Build) (q : Request), (blockFunction b q).status ≠ .ok →
    blockFunction b q =
      { status := (blockFunction b q).status, ack := false, tfi := 0x00#8, code := 0x00#8, odata := [] }

/-- R160: the number of each status, the operation that raises it, and exactly when the request-level and ENCODE's statuses
are answered. -/
def Obligations.StatusesComeFromTheirOperations : Prop :=
  (Status.ok.code = 0 ∧ Status.badMarker.code = 1 ∧ Status.badChecksum.code = 2 ∧
    Status.lengthMismatch.code = 3 ∧ Status.contractViolation.code = 4 ∧ Status.badRequest.code = 5) ∧
  ∀ (b : Config.Build) (q : Request),
    ((blockFunction b q).status ∈ [.badMarker, .badChecksum, .lengthMismatch] → q.ctrl = 0x02#8 ∨ q.ctrl = 0x06#8) ∧
    ((blockFunction b q).status = .contractViolation ↔
      q.dlen ≤ b.dataMax ∧ q.ctrl = 0x01#8 ∧ b.maxParams < q.dlen) ∧
    ((blockFunction b q).status = .badRequest ↔ b.dataMax < q.dlen ∨ q.ctrl ∉ ctrlMap)

/-- R25, R68, R69: ACK is 0 in every response but an ACKCHK's, TFI and CODE are 0 in every response but a DECODE's, and
only ENCODE and DECODE answer bytes. -/
def Obligations.FieldsNotProducedAreZero : Prop :=
  ∀ (b : Config.Build) (q : Request),
    (q.ctrl ≠ 0x03#8 → (blockFunction b q).ack = false) ∧
    (q.ctrl ≠ 0x02#8 → q.ctrl ≠ 0x06#8 → (blockFunction b q).tfi = 0x00#8 ∧ (blockFunction b q).code = 0x00#8) ∧
    (q.ctrl ≠ 0x01#8 → q.ctrl ≠ 0x02#8 → q.ctrl ≠ 0x06#8 → (blockFunction b q).odata = [])

/-- R28, R68: in every build a response holds at most 262 bytes, so OLEN fits its 9-bit field. -/
def Obligations.ResponseBytesFitTheirField : Prop :=
  ∀ (b : Config.Build) (q : Request), b.wf = true →
    (blockFunction b q).olen ≤ 262 ∧ (blockFunction b q).olenField.toNat = (blockFunction b q).olen

/-- R12, R22, R60, R68: PHASE's numbers, ACK as its 1-bit field, and DLEN as its 9-bit field, which holds the count of
every request the port can carry. -/
def Obligations.PortFieldsHoldTheirValues : Prop :=
  (Phase.idle.encoding = 0#2 ∧ Phase.busy.encoding = 1#2 ∧ Phase.done.encoding = 2#2) ∧
  (∀ r : Response, (r.ack = true → r.ackField = 1#1) ∧ (r.ack = false → r.ackField = 0#1)) ∧
  (∀ q : Request, q.wf = true → q.dlenField.toNat = q.data.length)

/-! ### Frames -/

/-- R45, R164, R196: what ENCODE, DECODE, DECODE.MIN and ACKCHK change: PHASE, REQ_L and RSP_L, as a compute step does, and
nothing else, whatever the outcome. -/
def Obligations.InstructionsChangeOnlyTheHandshake : Prop :=
  ∀ (i : Instr) (s t : State), exec i s = .next t →
    t.phase = .done ∧ t.reqL = none ∧ t.rspL.isSome = true ∧
    t.build = s.build ∧ t.events = s.events ∧ t.replies = s.replies

/-- R27, R45: what an instruction answers depends on it and the build alone, not on anything an earlier request left. -/
def Obligations.AnswersDoNotDependOnEarlierState : Prop :=
  ∀ (i : Instr) (s s' : State), s.build = s'.build →
    ∃ t t' : State, exec i s = .next t ∧ exec i s' = .next t' ∧ t.rspL = t'.rspL
end

