-- ==== Sys2Proof/Laws/Assembler.lean ====
section
/-! SUPPORT. The laws of the assembler: which numbers fit their fields, and how a text falls into its pieces (R75, R76). -/

namespace Sys2Proof.Machine

/-! ### Numbers and fields -/

theorem byteOfNumber_of_lt {n : Nat} (h : n < 256) : byteOfNumber n = some (BitVec.ofNat 8 n) := if_pos h

theorem byteOfNumber_of_ge {n : Nat} (h : 256 ≤ n) : byteOfNumber n = none := if_neg (by omega)

theorem byteOfNumber_toNat (v : Byte) : byteOfNumber v.toNat = some v := by
  rw [byteOfNumber_of_lt v.isLt, BitVec.ofNat_toNat, BitVec.setWidth_eq]

theorem mapM_byteOfNumber_toNat (s : List Byte) : (s.map BitVec.toNat).mapM byteOfNumber = some s := by
  induction s with
  | nil => rfl
  | cons v s ih =>
    rw [List.map_cons, List.mapM_cons, ih, byteOfNumber_toNat]
    rfl

/-- A list of numbers is refused exactly when one of them does not fit a byte. -/
theorem mapM_byteOfNumber_eq_none_iff (ns : List Nat) : ns.mapM byteOfNumber = none ↔ ∃ n ∈ ns, 256 ≤ n := by
  induction ns with
  | nil => simp
  | cons n ns ih =>
    by_cases h : n < 256
    · cases hs : ns.mapM byteOfNumber <;> simp [byteOfNumber_of_lt h, hs, Nat.not_le.mpr h, ← ih]
    · simp [byteOfNumber_of_ge (Nat.le_of_not_lt h), Nat.le_of_not_lt h]

theorem length_of_mapM_byteOfNumber {ns : List Nat} {s : List Byte} (h : ns.mapM byteOfNumber = some s) :
    s.length = ns.length := by
  induction ns generalizing s with
  | nil => cases h; rfl
  | cons n ns ih =>
    rw [List.mapM_cons] at h
    cases hn : byteOfNumber n with
    | none => rw [hn] at h; cases h
    | some v =>
      cases hs : ns.mapM byteOfNumber with
      | none => rw [hn, hs] at h; cases h
      | some t => rw [hn, hs] at h; cases h; simp [ih hs]

/-- When the fields of a request do not fit. -/
theorem requestOfNumbers_eq_none_iff (ctrl cc exp : Nat) (data : List Nat) :
    requestOfNumbers ctrl cc exp data = none ↔
      256 ≤ ctrl ∨ 256 ≤ cc ∨ 256 ≤ exp ∨ (∃ n ∈ data, 256 ≤ n) ∨ 511 < data.length := by
  unfold requestOfNumbers
  by_cases hc : ctrl < 256
  · by_cases hk : cc < 256
    · by_cases he : exp < 256
      · rw [byteOfNumber_of_lt hc, byteOfNumber_of_lt hk, byteOfNumber_of_lt he, ← mapM_byteOfNumber_eq_none_iff]
        cases hd : data.mapM byteOfNumber with
        | none => simp
        | some s =>
          simp [fitsDlen, length_of_mapM_byteOfNumber hd, Nat.not_le.mpr hc, Nat.not_le.mpr hk, Nat.not_le.mpr he]
      · simp [byteOfNumber_of_ge (Nat.le_of_not_lt he), Nat.le_of_not_lt he]
    · simp [byteOfNumber_of_ge (Nat.le_of_not_lt hk), Nat.le_of_not_lt hk]
  · simp [byteOfNumber_of_ge (Nat.le_of_not_lt hc), Nat.le_of_not_lt hc]

/-! ### Pieces of text -/

/-- The characters that neither separate nor end a piece. -/
def isPlain (c : Char) : Bool := !(c == ';' || isBlank c || c == ',' || c == '[' || c == ']')

/-- Plain characters are gathered into the word that is being read. -/
theorem tokens_plain {w : List Char} (rest revChars : List Char) (h : w.all isPlain = true) :
    tokens revChars (w ++ rest) = tokens (w.reverse ++ revChars) rest := by
  induction w generalizing revChars with
  | nil => rfl
  | cons c w ih =>
    simp only [List.all_cons, Bool.and_eq_true] at h
    obtain ⟨hc, hw⟩ := h
    simp only [isPlain, Bool.not_eq_true', Bool.or_eq_false_iff] at hc
    obtain ⟨⟨⟨⟨h1, h2⟩, h3⟩, h4⟩, h5⟩ := hc
    rw [List.cons_append, tokens]
    simp only [h1, h2, h3, h4, h5]
    rw [if_neg (by decide), if_neg (by decide), if_neg (by decide), if_neg (by decide), if_neg (by decide), ih _ hw]
    simp

/-- A word is one piece, whatever follows it. -/
theorem tokens_word {w : List Char} (rest : List Char) (h : w.all isPlain = true) :
    tokens [] (w ++ rest) = tokens w.reverse rest := by
  rw [tokens_plain rest [] h, List.append_nil]

theorem pushWord_reverse {w : List Char} (rest : List Token) (h : w ≠ []) :
    pushWord w.reverse rest = .word w :: rest := by
  cases hr : w.reverse with
  | nil => exact absurd (List.reverse_eq_nil_iff.mp hr) h
  | cons c cs => rw [pushWord, ← hr, List.reverse_reverse]

theorem tokens_blank (r rest : List Char) : tokens r (' ' :: rest) = pushWord r (tokens [] rest) := by
  simp [tokens, isBlank]

theorem tokens_comma (r rest : List Char) : tokens r (',' :: rest) = pushWord r (.comma :: tokens [] rest) := by
  simp [tokens, isBlank]

theorem tokens_listBegin (r rest : List Char) :
    tokens r ('[' :: rest) = pushWord r (.listBegin :: tokens [] rest) := by
  simp [tokens, isBlank]

theorem tokens_listEnd (r rest : List Char) : tokens r (']' :: rest) = pushWord r (.listEnd :: tokens [] rest) := by
  simp [tokens, isBlank]

theorem tokens_comment (r rest : List Char) : tokens r (';' :: rest) = pushWord r [] := by
  simp [tokens]

/-! ### Numerals -/

theorem digitsValue_append (base acc : Nat) (xs ys : List Char) :
    digitsValue base acc (xs ++ ys) = (digitsValue base acc xs).bind fun v => digitsValue base v ys := by
  induction xs generalizing acc with
  | nil => rfl
  | cons c xs ih => cases h : digitValue base c <;> simp [digitsValue, h, ih]

theorem digitValue_digitChar : ∀ d : Fin 10, digitValue 10 (Nat.digitChar d) = some d.val := by decide

/-- The decimal digits of a number have its value. -/
theorem digitsValue_toDigits (n : Nat) : digitsValue 10 0 (Nat.toDigits 10 n) = some n := by
  induction n using Nat.strongRecOn with
  | _ n ih =>
    by_cases h : n < 10
    · rw [Nat.toDigits_of_lt_base h, digitsValue, digitValue_digitChar ⟨n, h⟩]
      simp [digitsValue]
    · rw [Nat.toDigits_of_base_le (by decide) (Nat.le_of_not_lt h), digitsValue_append,
        ih (n / 10) (Nat.div_lt_self (by omega) (by decide)), Option.bind_some, digitsValue,
        digitValue_digitChar ⟨n % 10, Nat.mod_lt _ (by decide)⟩]
      simp only [digitsValue, Option.some.injEq]
      omega

/-- Without an x, digits are decimal. -/
theorem numberOf_decimal {ds : List Char} (hn : ds ≠ []) (hx : 'x' ∉ ds) : numberOf ds = digitsValue 10 0 ds := by
  unfold numberOf
  split <;> simp_all

/-- A decimal digit is plain, and no x. -/
theorem isPlain_of_isDigit {c : Char} (h : c.isDigit = true) : isPlain c = true ∧ c ≠ 'x' := by
  have hx : c ≠ 'x' ∧ c ≠ ';' ∧ c ≠ ' ' ∧ c ≠ '\t' ∧ c ≠ '\r' ∧ c ≠ ',' ∧ c ≠ '[' ∧ c ≠ ']' := by
    refine ⟨?_, ?_, ?_, ?_, ?_, ?_, ?_, ?_⟩ <;> rintro rfl <;> exact absurd h (by decide)
  simp [isPlain, isBlank, hx]

/-- The decimal notation of every number is a word and is read as that number. -/
theorem decimal_facts (n : Nat) : (Nat.toDigits 10 n).all isPlain = true ∧ Nat.toDigits 10 n ≠ [] ∧
    numberOf (Nat.toDigits 10 n) = some n := by
  have hd : ∀ c ∈ Nat.toDigits 10 n, isPlain c = true ∧ c ≠ 'x' := fun c hc =>
    isPlain_of_isDigit (Nat.isDigit_of_mem_toDigits (by decide) (by decide) hc)
  refine ⟨List.all_eq_true.mpr fun c hc => (hd c hc).1, Nat.toDigits_ne_nil, ?_⟩
  rw [numberOf_decimal Nat.toDigits_ne_nil fun hx => (hd _ hx).2 rfl, digitsValue_toDigits]

/-- The notation 0xNN of every number that two digits hold is a word and is read as that number. -/
theorem hex_facts : ∀ n : Fin 256, (numeral true n).all isPlain = true ∧ numeral true n ≠ [] ∧
    numberOf (numeral true n) = some n.val := by
  decide +kernel

/-- Both notations of every number are words and are read as that number. -/
theorem numeral_facts (hex : Bool) (n : Nat) :
    (numeral hex n).all isPlain = true ∧ numeral hex n ≠ [] ∧ numberOf (numeral hex n) = some n := by
  by_cases h : (hex && decide (n < 256)) = true
  · rw [Bool.and_eq_true, decide_eq_true_eq] at h
    rw [h.1]
    exact hex_facts ⟨n, h.2⟩
  · rw [numeral, if_neg h]
    exact decimal_facts n

theorem numeral_plain (hex : Bool) (n : Nat) : (numeral hex n).all isPlain = true := (numeral_facts hex n).1

theorem numeral_ne_nil (hex : Bool) (n : Nat) : numeral hex n ≠ [] := (numeral_facts hex n).2.1

theorem numberOf_numeral (hex : Bool) (n : Nat) : numberOf (numeral hex n) = some n := (numeral_facts hex n).2.2

/-- An operand before a list is its numeral and a comma. -/
theorem tokens_operandText (hex : Bool) (n : Nat) (rest : List Char) :
    tokens [] (operandText hex n ++ rest) = .word (numeral hex n) :: .comma :: tokens [] rest := by
  rw [operandText, List.append_assoc, tokens_word _ (numeral_plain _ _)]
  rw [List.cons_append, List.cons_append, List.nil_append, tokens_comma, pushWord_reverse _ (numeral_ne_nil _ _),
    tokens_blank]
  rfl

/-- Every mnemonic is one piece, before its operands. -/
theorem tokens_text (hex : Nat → Bool) (l : AsmLine) (rest : List Char) :
    tokens [] (l.text hex ++ rest) = .word l.mnemonic :: tokens [] (l.operandsText hex ++ rest) := by
  have hp : l.mnemonic.all isPlain = true := by cases l <;> rfl
  have hn : l.mnemonic ≠ [] := by cases l <;> exact List.cons_ne_nil _ _
  rw [AsmLine.text, List.append_assoc, List.cons_append, tokens_word _ hp, tokens_blank, pushWord_reverse _ hn]

/-- The items of a list that is not empty are read as they are, up to the bracket that ends the line. -/
theorem listItems_itemsText {rest : List Char} (hr : tokens [] rest = []) (hex : Nat → Bool) (n : Nat) (ns : List Nat) :
    listItems (tokens [] (itemsText hex (n :: ns) ++ ']' :: rest)) = some (n :: ns) ∧
      ∃ w ts, tokens [] (itemsText hex (n :: ns) ++ ']' :: rest) = .word w :: ts := by
  induction ns generalizing n hex with
  | nil =>
    have ht : tokens [] (itemsText hex [n] ++ ']' :: rest) = [.word (numeral (hex 0) n), .listEnd] := by
      rw [itemsText, tokens_word _ (numeral_plain _ _), tokens_listEnd, hr, pushWord_reverse _ (numeral_ne_nil _ _)]
    rw [ht, listItems, numberOf_numeral]
    exact ⟨rfl, _, _, rfl⟩
  | cons m ms ih =>
    obtain ⟨hi, -⟩ := ih (laterNotations hex 1) m
    have ht : tokens [] (itemsText hex (n :: m :: ms) ++ ']' :: rest) = .word (numeral (hex 0) n) :: .comma ::
        tokens [] (itemsText (laterNotations hex 1) (m :: ms) ++ ']' :: rest) := by
      rw [itemsText, List.append_assoc, tokens_word _ (numeral_plain _ _), List.cons_append, tokens_comma,
        pushWord_reverse _ (numeral_ne_nil _ _), List.cons_append, tokens_blank]
      rfl
    rw [ht, listItems, numberOf_numeral, hi]
    exact ⟨rfl, _, _, rfl⟩

/-- A list's text, with nothing but a comment after it, is read as that list. -/
theorem listOf_tokens_listText (hex : Nat → Bool) (ns : List Nat) {rest : List Char} (hr : tokens [] rest = []) :
    listOf (tokens [] (listText hex ns ++ rest)) = some ns := by
  cases ns with
  | nil =>
    have ht : tokens [] (listText hex [] ++ rest) = [.listBegin, .listEnd] := by
      simp [listText, itemsText, tokens_listBegin, tokens_listEnd, pushWord, hr]
    rw [ht, listOf]
  | cons n ns =>
    obtain ⟨hi, w, ts, hw⟩ := listItems_itemsText hr hex n ns
    have ht : tokens [] (listText hex (n :: ns) ++ rest) =
        .listBegin :: tokens [] (itemsText hex (n :: ns) ++ ']' :: rest) := by
      simp [listText, tokens_listBegin, pushWord]
    rw [ht, hw, listOf]
    · rw [← hw]; exact hi
    · simp

/-! ### Lines -/

theorem lineOfMnemonic_encode (cc : Nat) (ps : List Nat) (ops : List Token) :
    lineOfMnemonic (AsmLine.encode cc ps).mnemonic ops = numberAndList .encode ops := if_pos rfl

theorem lineOfMnemonic_decode (exp : Nat) (bs : List Nat) (ops : List Token) :
    lineOfMnemonic (AsmLine.decode exp bs).mnemonic ops = numberAndList .decode ops := rfl

theorem lineOfMnemonic_decodeMin (exp : Nat) (bs : List Nat) (ops : List Token) :
    lineOfMnemonic (AsmLine.decodeMin exp bs).mnemonic ops = numberAndList .decodeMin ops := rfl

theorem lineOfMnemonic_ackchk (bs : List Nat) (ops : List Token) :
    lineOfMnemonic (AsmLine.ackchk bs).mnemonic ops = (listOf ops).map .ackchk := rfl

theorem lineOfMnemonic_decodeAny (bs : List Nat) (ops : List Token) :
    lineOfMnemonic (AsmLine.decodeAny bs).mnemonic ops = (listOf ops).map .decodeAny := rfl

theorem lineOfMnemonic_req (ctrl cc exp : Nat) (bs : List Nat) (ops : List Token) :
    lineOfMnemonic (AsmLine.req ctrl cc exp bs).mnemonic ops = reqOperands ops := rfl

/-- A number and a list, as they are written, are read as they are. -/
theorem numberAndList_text (f : Nat → List Nat → AsmLine) (hex : Bool) (hexs : Nat → Bool) (n : Nat) (ns : List Nat)
    {rest : List Char} (hr : tokens [] rest = []) :
    numberAndList f (tokens [] (operandText hex n ++ listText hexs ns ++ rest)) = some (f n ns) := by
  rw [List.append_assoc, tokens_operandText, numberAndList, numberOf_numeral, listOf_tokens_listText _ _ hr]

/-- The four fields of REQ, as they are written, are read as they are. -/
theorem reqOperands_text (hex1 hex2 hex3 : Bool) (hexs : Nat → Bool) (ctrl cc exp : Nat) (ns : List Nat)
    {rest : List Char} (hr : tokens [] rest = []) :
    reqOperands (tokens [] (operandText hex1 ctrl ++ (operandText hex2 cc ++ (operandText hex3 exp ++
      listText hexs ns)) ++ rest)) = some (.req ctrl cc exp ns) := by
  rw [List.append_assoc, List.append_assoc, List.append_assoc, tokens_operandText, tokens_operandText,
    tokens_operandText, reqOperands, numberOf_numeral, numberOf_numeral, numberOf_numeral,
    listOf_tokens_listText _ _ hr]

end Sys2Proof.Machine
end

