-- ==== Sys2Proof/Laws/BlockFunction.lean ====
section
/-! SUPPORT. F (R161) at each CTRL value of R62 and at the reserved ones. -/

namespace Sys2Proof.Machine

/-- The four CTRL values of R62. -/
theorem ctrlMap_cases {c : Byte} (h : c ∈ ctrlMap) : c = 0x01#8 ∨ c = 0x02#8 ∨ c = 0x06#8 ∨ c = 0x03#8 := by
  simpa [ctrlMap] using h

variable {b : Config.Build} {q : Request}

theorem blockFunction_of_oversize (h : b.dataMax < q.dlen) : blockFunction b q = Response.error .badRequest := by
  simp [blockFunction, h]

theorem blockFunction_of_reserved (h : q.ctrl ∉ ctrlMap) : blockFunction b q = Response.error .badRequest := by
  simp [blockFunction, h]

theorem blockFunction_encode (hd : q.dlen ≤ b.dataMax) (h : q.ctrl = 0x01#8) :
    blockFunction b q = responseOf (encodeResult b q.cc q.data) := by
  simp [blockFunction, Nat.not_lt.mpr hd, h, ctrlMap, ctrlOp]

theorem blockFunction_decode (hd : q.dlen ≤ b.dataMax) (h : q.ctrl = 0x02#8) :
    blockFunction b q = responseOf (decodeResult .exact q.exp q.data) := by
  simp [blockFunction, Nat.not_lt.mpr hd, h, ctrlMap, ctrlOp, expModeOf, ctrlExpMin]

theorem blockFunction_decodeMin (hd : q.dlen ≤ b.dataMax) (h : q.ctrl = 0x06#8) :
    blockFunction b q = responseOf (decodeResult .atLeast q.exp q.data) := by
  simp [blockFunction, Nat.not_lt.mpr hd, h, ctrlMap, ctrlOp, expModeOf, ctrlExpMin]

theorem blockFunction_ackchk (hd : q.dlen ≤ b.dataMax) (h : q.ctrl = 0x03#8) :
    blockFunction b q = ackResult q.data := by
  simp [blockFunction, Nat.not_lt.mpr hd, h, ctrlMap, ctrlOp]

end Sys2Proof.Machine
end

