-- ==== Sys2Proof/Laws/Checksum.lean ====
section
/-! SUPPORT. The laws of sum8, neg8, byteAt and slice that every proof about a frame needs (R14, R100). -/

namespace Sys2Proof.Machine

@[simp] theorem byteSum_nil : byteSum [] = 0 := rfl

@[simp] theorem byteSum_cons (v : Byte) (s : List Byte) : byteSum (v :: s) = v.toNat + byteSum s := by
  simp [byteSum]

@[simp] theorem byteSum_append (s t : List Byte) : byteSum (s ++ t) = byteSum s + byteSum t := by
  simp [byteSum]

@[simp] theorem sum8_nil : sum8 [] = 0#8 := rfl

@[simp] theorem sum8_cons (v : Byte) (s : List Byte) : sum8 (v :: s) = v + sum8 s := by
  apply BitVec.eq_of_toNat_eq
  simp [sum8]

@[simp] theorem sum8_append (s t : List Byte) : sum8 (s ++ t) = sum8 s + sum8 t := by
  apply BitVec.eq_of_toNat_eq
  simp [sum8]

/-- Two's-complement negation is negation modulo 256. -/
theorem neg8_eq_neg (v : Byte) : neg8 v = -v := (BitVec.neg_eq_not_add v).symm

@[simp] theorem add_neg8 (v : Byte) : v + neg8 v = 0#8 := by
  rw [neg8_eq_neg]; exact BitVec.add_right_neg v

theorem byteAt_of_lt {s : List Byte} {i : Nat} (h : i < s.length) : byteAt s i = s[i] := by
  simp [byteAt, h]

theorem byteAt_append_left {s t : List Byte} {i : Nat} (h : i < s.length) : byteAt (s ++ t) i = byteAt s i := by
  rw [byteAt_of_lt h, byteAt_of_lt (by simp; omega), List.getElem_append_left h]

theorem length_slice (s : List Byte) (i j : Nat) : (slice s i j).length = min (j - i) (s.length - i) := by
  simp [slice]

/-- A slice that ends within the front part does not see what follows it. -/
theorem slice_append_left {s t : List Byte} {i j : Nat} (hj : j ≤ s.length) :
    slice (s ++ t) i j = slice s i j := by
  by_cases hi : i ≤ s.length
  · rw [slice, slice, List.drop_append_of_le_length hi, List.take_append_of_le_length (by simp; omega)]
  · simp [slice, show j - i = 0 by omega]

end Sys2Proof.Machine
end

