-- ==== Sys2Proof/Laws/Frame.lean ====
section
/-! SUPPORT. The laws of a frame's bytes: its length, its parts, its sums, and what changing one byte does. -/

namespace Sys2Proof.Machine

@[simp] theorem length_frame (tfi : Byte) (pd : List Byte) : (frame tfi pd).length = pd.length + 8 := by
  simp [frame]

/-- LEN as a number, while it fits its byte (R71). -/
theorem lenByte_toNat {pd : List Byte} (h : pd.length ≤ 254) : (lenByte pd).toNat = pd.length + 1 := by
  simp [lenByte]
  omega

/-- A frame as its header, its summed bytes and its POSTAMBLE. -/
theorem frame_eq_parts (tfi : Byte) (pd : List Byte) :
    frame tfi pd = [preamble, start1, start2, lenByte pd, lcs (lenByte pd)] ++
      ((tfi :: pd ++ [dcs tfi pd]) ++ [postamble]) := by
  simp [frame]

/-- TFI, PD and DCS sum to 0 (R103). -/
theorem sum8_with_dcs (tfi : Byte) (pd : List Byte) : sum8 (tfi :: pd ++ [dcs tfi pd]) = 0#8 := by
  have h := add_neg8 (tfi + sum8 pd)
  rw [BitVec.add_assoc] at h
  simpa [dcs] using h

/-- A slice of exactly the middle of three parts. -/
theorem slice_middle {a b c : List Byte} {i j : Nat} (hi : a.length = i) (hj : j = i + b.length) :
    slice (a ++ (b ++ c)) i j = b := by
  subst hi hj
  simp [slice]

theorem byteAt_set {f : List Byte} {i : Nat} (j : Nat) (v : Byte) (h : i < f.length) :
    byteAt (f.set i v) j = if i = j then v else byteAt f j := by
  simp only [byteAt, List.getD_eq_getElem?_getD, List.getElem?_set]
  by_cases e : i = j
  · subst e
    simp [h]
  · simp [e]

/-- Changing one byte of a list changes its sum by the difference. -/
theorem sum8_set {l : List Byte} {k : Nat} (v : Byte) (h : k < l.length) :
    sum8 (l.set k v) + l[k] = sum8 l + v := by
  induction l generalizing k with
  | nil => exact absurd h (by simp)
  | cons a l ih =>
    cases k with
    | zero => simp only [List.set_cons_zero, sum8_cons, List.getElem_cons_zero]; ac_rfl
    | succ k =>
      simp only [List.set_cons_succ, sum8_cons, List.getElem_cons_succ]
      rw [BitVec.add_assoc, ih (by simpa using h), BitVec.add_assoc]

/-- The decoder gets past its first three steps exactly on a good header, and then checks the body (R110). -/
theorem decodeResult_of_header {mode : ExpMode} {exp : Byte} {raw : List Byte} (h : 5 ≤ raw.length)
    (h1 : byteAt raw 1 = start1) (h2 : byteAt raw 2 = start2) (h4 : byteAt raw 4 = lcs (byteAt raw 3)) :
    decodeResult mode exp raw = decodeBody mode exp raw (byteAt raw 3).toNat := by
  unfold decodeResult
  rw [if_neg (by omega), if_neg (by simp [h1, h2]), if_neg (by simp [h4, lcs])]

end Sys2Proof.Machine
end

