-- ==== Sys2Proof/Laws/State.lean ====
section
/-! SUPPORT. One lemma per field per update of State, so that no later proof unfolds a record update. -/

namespace Sys2Proof.Machine

namespace State
variable (s : State) (r : Response) (st : Status) (rep : Reply) (q : Request)

@[simp] theorem complete_phase : (s.complete r).phase = .done := rfl
@[simp] theorem complete_reqL : (s.complete r).reqL = none := rfl
@[simp] theorem complete_rspL : (s.complete r).rspL = some r := rfl
@[simp] theorem complete_build : (s.complete r).build = s.build := rfl
@[simp] theorem complete_events : (s.complete r).events = s.events := rfl
@[simp] theorem complete_replies : (s.complete r).replies = s.replies := rfl

@[simp] theorem resetBlock_phase : s.resetBlock.phase = .idle := rfl
@[simp] theorem resetBlock_reqL : s.resetBlock.reqL = none := rfl
@[simp] theorem resetBlock_rspL : s.resetBlock.rspL = none := rfl
@[simp] theorem resetBlock_build : s.resetBlock.build = s.build := rfl
@[simp] theorem resetBlock_events : s.resetBlock.events = s.events := rfl
@[simp] theorem resetBlock_replies : s.resetBlock.replies = s.replies := rfl

@[simp] theorem shown_phase : (s.shown rep).phase = s.phase := rfl
@[simp] theorem shown_reqL : (s.shown rep).reqL = s.reqL := rfl
@[simp] theorem shown_rspL : (s.shown rep).rspL = s.rspL := rfl
@[simp] theorem shown_build : (s.shown rep).build = s.build := rfl
@[simp] theorem shown_events : (s.shown rep).events = s.events := rfl
@[simp] theorem shown_replies : (s.shown rep).replies = s.replies ++ [rep] := rfl

@[simp] theorem latchNext_phase : (s.latchNext q).phase = .busy := rfl
@[simp] theorem latchNext_reqL : (s.latchNext q).reqL = some q := rfl
@[simp] theorem latchNext_rspL : (s.latchNext q).rspL = none := rfl
@[simp] theorem latchNext_build : (s.latchNext q).build = s.build := rfl
@[simp] theorem latchNext_events : (s.latchNext q).events = .compute :: s.events := rfl
@[simp] theorem latchNext_replies : (s.latchNext q).replies = s.replies := rfl

/-- Raising a status completes with the error response (R163). -/
theorem raise_eq_complete : s.raise st = s.complete (Response.error st) := rfl

/-- However an operation ends, the compute step completes with the response it ends in. -/
theorem finish_eq_complete (x : Except Status Response) : s.finish x = s.complete (responseOf x) := by
  cases x <;> rfl

end State

@[simp] theorem Response.error_status (st : Status) : (Response.error st).status = st := rfl
@[simp] theorem Response.error_ack (st : Status) : (Response.error st).ack = false := rfl
@[simp] theorem Response.error_tfi (st : Status) : (Response.error st).tfi = 0#8 := rfl
@[simp] theorem Response.error_code (st : Status) : (Response.error st).code = 0#8 := rfl
@[simp] theorem Response.error_odata (st : Status) : (Response.error st).odata = [] := rfl

@[simp] theorem responseOf_ok (r : Response) : responseOf (.ok r) = r := rfl
@[simp] theorem responseOf_error (st : Status) : responseOf (.error st) = Response.error st := rfl

end Sys2Proof.Machine
end

