-- ==== Sys2Proof/Laws/Ops.lean ====
section
/-! SUPPORT. What each shared operation, each transition, `exec` and `step` can do, each said once. -/

namespace Sys2Proof.Machine

/-! ### The transitions -/

theorem submit_of_idle {s : State} (q : Request) (h : s.phase = .idle) :
    s.submit q = (.accepted, { s with phase := .busy, reqL := some q }) := by
  simp [State.submit, h]

theorem submit_of_not_idle {s : State} (q : Request) (h : s.phase ≠ .idle) : s.submit q = (.held, s) := by
  unfold State.submit
  split <;> simp_all

/-- A submit is taken in IDLE and held, changing nothing, in every other phase. -/
theorem submit_cases (s : State) (q : Request) :
    (s.phase = .idle ∧ s.submit q = (.accepted, { s with phase := .busy, reqL := some q })) ∨
    (s.phase ≠ .idle ∧ s.submit q = (.held, s)) := by
  by_cases h : s.phase = .idle
  · exact .inl ⟨h, submit_of_idle q h⟩
  · exact .inr ⟨h, submit_of_not_idle q h⟩

theorem collect_of_done {s : State} {r : Response} (h : s.phase = .done) (hr : s.rspL = some r) :
    s.collect = (.response r, { s with phase := .idle, rspL := none }) := by
  simp [State.collect, h, hr]

/-- A collect is taken in DONE with a response latched, and held, changing nothing, otherwise. -/
theorem collect_cases (s : State) :
    (∃ r, s.phase = .done ∧ s.rspL = some r ∧
      s.collect = (.response r, { s with phase := .idle, rspL := none })) ∨
    (¬(s.phase = .done ∧ s.rspL.isSome = true) ∧ s.collect = (.held, s)) := by
  unfold State.collect
  split
  · exact .inl ⟨_, ‹_›, ‹_›, rfl⟩
  · refine .inr ⟨?_, rfl⟩
    rintro ⟨hp, hr⟩
    obtain ⟨r, hr⟩ := Option.isSome_iff_exists.mp hr
    exact absurd hr (by intro h; simp_all)

/-! ### What an instruction answers -/

/-- The response an instruction's operation ends in, in a build. -/
def answer (b : Config.Build) : Instr → Response
  | .encode cc params => responseOf (encodeResult b cc params)
  | .decode exp raw => responseOf (decodeResult .exact exp raw)
  | .decodeMin exp raw => responseOf (decodeResult .atLeast exp raw)
  | .ackchk read => ackResult read

/-- Every instruction completes, and all it does is complete with its answer. -/
theorem exec_eq_complete (i : Instr) (s : State) : exec i s = .next (s.complete (answer s.build i)) := by
  cases i <;>
    simp [exec, execEncode, execDecode, execDecodeMin, execAckchk, answer, State.finish_eq_complete]

/-- What a latched request is answered: its instruction's answer, or the error response of the status it is refused
with (R161, R165). -/
def answered (b : Config.Build) (q : Request) : Response :=
  match checkRequest b q with
  | .ok i => answer b i
  | .error st => Response.error st

theorem compute_of_busy {s : State} {q : Request} (hp : s.phase = .busy) (hq : s.reqL = some q) :
    compute s = .next (s.complete (answered s.build q)) := by
  unfold compute answered
  simp only [hp, hq]
  cases checkRequest s.build q with
  | ok i => exact exec_eq_complete i s
  | error st => rfl

/-- A compute step completes a latched request with its answer, and is not enabled otherwise. -/
theorem compute_cases (s : State) :
    (∃ q, s.phase = .busy ∧ s.reqL = some q ∧ compute s = .next (s.complete (answered s.build q))) ∨
    (¬(s.phase = .busy ∧ s.reqL.isSome = true) ∧ compute s = .next s) := by
  by_cases h : s.phase = .busy ∧ s.reqL.isSome = true
  · obtain ⟨q, hq⟩ := Option.isSome_iff_exists.mp h.2
    exact .inl ⟨q, h.1, hq, compute_of_busy h.1 hq⟩
  · refine .inr ⟨h, ?_⟩
    unfold compute
    split
    · exact absurd ⟨‹_›, by simp_all⟩ h
    · rfl

/-! ### The step -/

theorem step_of_nil {s : State} (h : s.events = []) : step s = compute s := by
  simp [step, h, handleNone]

theorem step_of_cons {s : State} {e : Event} {rest : List Event} (h : s.events = e :: rest) :
    step s = handle e { s with events := rest } := by
  simp [step, h]

/-- The block's turn in the schedule: nothing is left in it, or its next event is the compute step. -/
def blockMoves (es : List Event) : Prop := es = [] ∨ ∃ rest, es = .compute :: rest

/-- Everything one step can do: which event it used up, and how PHASE, REQ_L, RSP_L and the replies changed. -/
inductive StepCase (s : State) : State → Prop where
  | submitAccepted (q : Request) (rest : List Event) (he : s.events = .submit q :: rest) (hp : s.phase = .idle) :
      StepCase s { s with
        events := rest, phase := .busy, reqL := some q, replies := s.replies ++ [.accepted] }
  | submitHeld (q : Request) (rest : List Event) (he : s.events = .submit q :: rest) (hp : s.phase ≠ .idle) :
      StepCase s { s with events := rest, replies := s.replies ++ [.held] }
  | collected (r : Response) (rest : List Event) (he : s.events = .collect :: rest) (hp : s.phase = .done)
      (hr : s.rspL = some r) :
      StepCase s { s with
        events := rest, phase := .idle, rspL := none, replies := s.replies ++ [.response r] }
  | collectHeld (rest : List Event) (he : s.events = .collect :: rest)
      (hn : ¬(s.phase = .done ∧ s.rspL.isSome = true)) :
      StepCase s { s with events := rest, replies := s.replies ++ [.held] }
  | reset (rest : List Event) (he : s.events = .reset :: rest) :
      StepCase s { s with events := rest, phase := .idle, reqL := none, rspL := none }
  | computed (q : Request) (he : blockMoves s.events) (hp : s.phase = .busy) (hq : s.reqL = some q) :
      StepCase s { s with
        events := s.events.tail, phase := .done, reqL := none, rspL := some (answered s.build q) }
  | notEnabled (he : blockMoves s.events) (hn : ¬(s.phase = .busy ∧ s.reqL.isSome = true)) :
      StepCase s { s with events := s.events.tail }
  | stayed (rest : List Event) (he : s.events = .stay :: rest) : StepCase s { s with events := rest }

/-- Every step answers a next state, by one of these cases. -/
theorem step_cases (s : State) : ∃ t, step s = .next t ∧ StepCase s t := by
  rcases he : s.events with _ | ⟨e, rest⟩
  · rw [step_of_nil he]
    rcases compute_cases s with ⟨q, hp, hq, h⟩ | ⟨hn, h⟩
    · refine ⟨_, h, ?_⟩
      have := StepCase.computed q (.inl he) hp hq
      rwa [he, List.tail_nil, ← he] at this
    · refine ⟨_, h, ?_⟩
      have := StepCase.notEnabled (.inl he) hn
      rwa [he, List.tail_nil, ← he] at this
  · rw [step_of_cons he]
    cases e with
    | submit q =>
      rcases submit_cases { s with events := rest } q with ⟨hp, h⟩ | ⟨hp, h⟩ <;>
        refine ⟨_, rfl, ?_⟩ <;> rw [h]
      · exact .submitAccepted q rest he hp
      · exact .submitHeld q rest he hp
    | collect =>
      rcases collect_cases { s with events := rest } with ⟨r, hp, hr, h⟩ | ⟨hn, h⟩ <;>
        refine ⟨_, rfl, ?_⟩ <;> rw [h]
      · exact .collected r rest he hp hr
      · exact .collectHeld rest he hn
    | reset => exact ⟨_, rfl, .reset rest he⟩
    | compute =>
      rcases compute_cases { s with events := rest } with ⟨q, hp, hq, h⟩ | ⟨hn, h⟩
      · refine ⟨_, h, ?_⟩
        have := StepCase.computed q (.inr ⟨rest, he⟩) hp hq
        rwa [he, List.tail_cons] at this
      · refine ⟨_, h, ?_⟩
        have := StepCase.notEnabled (.inr ⟨rest, he⟩) hn
        rwa [he, List.tail_cons] at this
    | stay => exact ⟨_, rfl, .stayed rest he⟩

/-- The inversion of a step that is known to answer t. -/
theorem stepCase_of_step {s t : State} (h : step s = .next t) : StepCase s t := by
  obtain ⟨u, hu, hc⟩ := step_cases s
  rw [hu] at h
  cases h
  exact hc

/-! ### The codec: when an operation answers OK -/

/-- ENCODE answers OK exactly within its capacity (R104). -/
theorem encodeResult_eq_ok_iff {b : Config.Build} {cc : Byte} {params : List Byte} {r : Response} :
    encodeResult b cc params = .ok r ↔
      params.length ≤ b.maxParams ∧ r = { Response.blank .ok with odata := frame tfiOut (cc :: params) } := by
  unfold encodeResult withinCapacity
  by_cases h : params.length ≤ b.maxParams <;> simp [h, eq_comm]

/-- Steps 4 to 8 answer OK exactly when each passes (R110). -/
theorem decodeBody_eq_ok_iff {mode : ExpMode} {exp : Byte} {raw : List Byte} {len : Nat} {r : Response} :
    decodeBody mode exp raw len = .ok r ↔
      2 ≤ len ∧ len + 7 ≤ raw.length ∧ sum8 (slice raw 5 (6 + len)) = 0#8 ∧
        byteAt raw (6 + len) = postamble ∧ mode.meets exp (len - 2) = true ∧ r = decodedResponse raw len := by
  unfold decodeBody
  by_cases h4 : len < 2
  · simp [h4]
  by_cases h5 : raw.length < len + 7
  · simp [h4, h5]
  by_cases h6 : sum8 (slice raw 5 (6 + len)) = 0#8 <;> by_cases h7 : byteAt raw (6 + len) = postamble <;>
    by_cases h8 : mode.meets exp (len - 2) = true <;>
    simp [h4, h5, h6, h7, h8, Nat.le_of_not_lt h4, Nat.le_of_not_lt h5, eq_comm]

/-- DECODE answers OK exactly when all eight steps pass (R110). -/
theorem decodeResult_eq_ok_iff {mode : ExpMode} {exp : Byte} {raw : List Byte} {r : Response} :
    decodeResult mode exp raw = .ok r ↔
      5 ≤ raw.length ∧ byteAt raw 1 = start1 ∧ byteAt raw 2 = start2 ∧ byteAt raw 3 + byteAt raw 4 = 0#8 ∧
        decodeBody mode exp raw (byteAt raw 3).toNat = .ok r := by
  unfold decodeResult
  by_cases h1 : raw.length < 5
  · simp [h1]
  by_cases h2 : byteAt raw 1 = start1 <;> by_cases h2' : byteAt raw 2 = start2 <;>
    by_cases h3 : byteAt raw 3 + byteAt raw 4 = 0#8 <;>
    simp [h1, h2, h2', h3, Nat.le_of_not_lt h1]

end Sys2Proof.Machine
end

