-- ==== Sys2Proof/Laws/PerInstr.lean ====
section
/-! SUPPORT. Per-instruction facts about the encoder: the request of a well-formed instruction is one the port can carry,
and its CTRL byte is not reserved. -/

namespace Sys2Proof.Laws.RequestFits

/-- A well-formed instruction's request fits the port, and its CTRL byte is in R62's map. -/
def Statement (i : Instr) : Prop :=
  i.wf = true → (encodeRequest i).wf = true ∧ ∃ op, decodeCtrl (encodeRequest i).ctrl = .ok op

theorem encode (cc : Byte) (params : List Byte) : Statement (.encode cc params) :=
  fun h => ⟨h, .encode, (by decide : decodeCtrl 0x01#8 = .ok .encode)⟩

theorem decode (exp : Byte) (raw : List Byte) : Statement (.decode exp raw) :=
  fun h => ⟨h, .decode, (by decide : decodeCtrl 0x02#8 = .ok .decode)⟩

theorem decodeMin (exp : Byte) (raw : List Byte) : Statement (.decodeMin exp raw) :=
  fun h => ⟨h, .decodeMin, (by decide : decodeCtrl 0x06#8 = .ok .decodeMin)⟩

theorem ackchk (read : List Byte) : Statement (.ackchk read) :=
  fun h => ⟨h, .ackchk, (by decide : decodeCtrl 0x03#8 = .ok .ackchk)⟩

end Sys2Proof.Laws.RequestFits
end

