-- ==== Sys2Proof/Laws/Run.lean ====
section
/-! SUPPORT. The laws of `run`: it is the host's run of the core, and it composes. -/

namespace Sys2Proof.Machine

@[simp] theorem run_zero (s : State) : run 0 s = .next s := rfl

theorem run_succ_of_step {s t : State} (k : Nat) (h : step s = .next t) : run (k + 1) s = run k t := by
  rw [run, h]

/-- What the host's run of any machine does after a first step. -/
theorem coreRun_succ (M : Host.Core) (k : Nat) (s : M.State) :
    M.run (k + 1) s =
      match M.step s with
      | .next t => M.run k t
      | .fault r => .fault r
      | .refused r => .refused r := by
  cases h : M.step s <;> simp [Host.Core.run, h]

/-- `run` is the host's run of `core`. -/
theorem run_eq_core_run (k : Nat) (s : State) : run k s = Host.Core.run Sys2Proof.core k s := by
  induction k generalizing s with
  | zero => rfl
  | succ k ih =>
    refine Eq.trans ?_ (coreRun_succ Sys2Proof.core k s).symm
    have hcore : Sys2Proof.core.step s = step s := rfl
    cases hs : step s with
    | next t => rw [run_succ_of_step k hs, hcore.trans hs]; exact ih t
    | fault r => rw [run, hs, hcore.trans hs]; rfl
    | refused r => rw [run, hs, hcore.trans hs]; rfl

/-- A run of m steps that ends in t goes on from t. -/
theorem run_add_of_run {m : Nat} {s t : State} (n : Nat) (h : run m s = .next t) : run (m + n) s = run n t := by
  induction m generalizing s with
  | zero => cases h; rw [Nat.zero_add]
  | succ m ih =>
    cases hs : step s with
    | next u =>
      rw [run_succ_of_step _ hs] at h
      rw [Nat.add_right_comm, run_succ_of_step _ hs, ih h]
    | fault r => rw [run, hs] at h; cases h
    | refused r => rw [run, hs] at h; cases h

end Sys2Proof.Machine
end

