-- ==== Sys2Proof/Tests/Slice0.lean ====
section
/-! SUPPORT. The model's own tests. Expected results are the spec's: V, T, A and H are the vectors of
spec/95_test_vectors.md. Each `wit_` theorem gives a concrete input that meets a statement's hypotheses, at a boundary
where there is one. -/

namespace Sys2Proof.Tests
open Sys2Proof Sys2Proof.Machine

/-! ### Small states -/

def testBuild : Config.Build := { maxParams := 16, dataMax := 300 }

def idleState (es : List Event) : State := { State.reset with events := es }

def busyState (b : Config.Build) (q : Request) (es : List Event) : State :=
  { State.reset with phase := .busy, reqL := some q, build := b, events := es }

def doneState (r : Response) (es : List Event) : State :=
  { State.reset with phase := .done, rspL := some r, events := es }

/-- The state one step later, where there is one. -/
def after (s : State) : Option State :=
  match step s with
  | .next t => some t
  | .fault _ => none
  | .refused _ => none

theorem step_of_after {s t : State} (h : after s = some t) : step s = .next t := by
  unfold after at h
  cases hs : step s with
  | next u => rw [hs] at h; exact congrArg _ (Option.some.inj h)
  | fault r => exact nomatch r
  | refused r => rw [hs] at h; cases h

/-- The response one step after the request is latched. -/
def answerTo (b : Config.Build) (q : Request) : Option Response :=
  match after (busyState b q []) with
  | some t => t.rspL
  | none => none

def dflt : Config.Build := Config.Build.default

def encReq : Request := encodeRequestOf 0x02#8 []
/-- The frame of V1. -/
def v1Frame : List Byte := [0x00, 0x00, 0xFF, 0x02, 0xFE, 0xD4, 0x02, 0x2A, 0x00]
/-- The frame FW of section 3. -/
def fwFrame : List Byte := [0x00, 0x00, 0xFF, 0x06, 0xFA, 0xD5, 0x03, 0x32, 0x01, 0x06, 0x07, 0xE8, 0x00]
def v1Response : Response := { status := .ok, ack := false, tfi := 0, code := 0, odata := v1Frame }
def fwResponse : Response :=
  { status := .ok, ack := false, tfi := 0xD5, code := 0x03, odata := [0x32, 0x01, 0x06, 0x07] }
def errorResponse (st : Status) : Response := { status := st, ack := false, tfi := 0, code := 0, odata := [] }

/-! ### WellFormed refuses ill-formed terms -/

theorem test_wf_encode_refuses_512 : Instr.wf (.encode 0x02 (List.replicate 512 0)) = false := by decide +kernel
theorem test_wf_decode_refuses_512 : Instr.wf (.decode 0x00 (List.replicate 512 0)) = false := by decide +kernel
theorem test_wf_decodeMin_refuses_512 : Instr.wf (.decodeMin 0x00 (List.replicate 512 0)) = false := by decide +kernel
theorem test_wf_ackchk_refuses_512 : Instr.wf (.ackchk (List.replicate 512 0)) = false := by decide +kernel
theorem test_wf_admits_511 : Instr.wf (.ackchk (List.replicate 511 0)) = true := by decide +kernel
theorem test_wf_request_refuses_512 : Request.wf (encodeRequestOf 0x02 (List.replicate 512 0)) = false := by decide +kernel
theorem test_wf_build_refuses_maxParams_254 : Config.Build.wf { maxParams := 254, dataMax := 262 } = false := by decide
theorem test_wf_build_refuses_dataMax_261 : Config.Build.wf { maxParams := 253, dataMax := 261 } = false := by decide
theorem test_wf_build_refuses_dataMax_512 : Config.Build.wf { maxParams := 253, dataMax := 512 } = false := by decide
theorem test_wf_response_refuses_263 :
    Response.wf { v1Response with odata := List.replicate 263 0 } = false := by decide +kernel
theorem test_wf_response_refuses_error_with_data :
    Response.wf { errorResponse .badMarker with odata := [0x01] } = false := by decide
theorem test_wf_event_refuses_long_submit : Event.wf (.submit (ackchkRequestOf (List.replicate 512 0))) = false := by
  decide +kernel
theorem test_inv_refuses_busy_with_nothing_latched : ¬State.Inv { State.reset with phase := .busy } := by decide
theorem test_inv_refuses_request_latched_in_idle : ¬State.Inv { State.reset with reqL := some encReq } := by decide
theorem test_inv_refuses_done_with_no_response : ¬State.Inv { State.reset with phase := .done } := by decide

/-! ### Decoding: CTRL = reserved[7:3] EXPMIN[2] OP[1:0] (R61, R62, R64) -/

theorem test_decode_encode : decodeRequest { ctrl := 0b00000001, cc := 0x4A, exp := 0x7F, data := [0x01, 0x00] } =
    .ok (.encode 0x4A [0x01, 0x00]) := by decide
theorem test_decode_decode : decodeRequest { ctrl := 0b00000010, cc := 0x55, exp := 0x04, data := fwFrame } =
    .ok (.decode 0x04 fwFrame) := by decide
theorem test_decode_decodeMin : decodeRequest { ctrl := 0b00000110, cc := 0x55, exp := 0x04, data := fwFrame } =
    .ok (.decodeMin 0x04 fwFrame) := by decide
theorem test_decode_ackchk : decodeRequest { ctrl := 0b00000011, cc := 0x55, exp := 0x66, data := [0x01] } =
    .ok (.ackchk [0x01]) := by decide
theorem test_decode_op_zero : decodeCtrl 0x04 = .error .opZero := by decide
theorem test_decode_expmin_without_decode :
    decodeCtrl 0x05 = .error .expMinWithoutDecode ∧ decodeCtrl 0x07 = .error .expMinWithoutDecode := by decide
theorem test_decode_reserved_bits : decodeCtrl 0x81 = .error .reservedBits ∧ decodeCtrl 0xFF = .error .reservedBits := by
  decide
/-- The decoder and the opcode table agree on every CTRL byte: exactly the table's four match values decode. -/
theorem test_decode_agrees_with_table : ∀ c : Byte,
    (decodeCtrl c = .ok .encode ↔ c = 0x01) ∧ (decodeCtrl c = .ok .decode ↔ c = 0x02) ∧
    (decodeCtrl c = .ok .decodeMin ↔ c = 0x06) ∧ (decodeCtrl c = .ok .ackchk ↔ c = 0x03) := by decide
theorem test_encode_request_fields :
    encodeRequest (.decodeMin 0x03 [0xAA]) = { ctrl := 0x06, cc := 0x00, exp := 0x03, data := [0xAA] } := by decide
theorem test_field_widths : (encodeRequestOf 0x02 (List.replicate 262 0)).dlenField = 262#9 ∧
    v1Response.olenField = 9#9 ∧ Status.badRequest.code = 5#3 ∧ Phase.done.encoding = 2#2 := by decide +kernel

/-! ### Checksums (section 5) -/

theorem test_neg8_table : [0x00, 0x01, 0x02, 0x03, 0x7F, 0x80, 0xFE, 0xFF].map neg8 =
    [0x00#8, 0xFF#8, 0xFE#8, 0xFD#8, 0x81#8, 0x80#8, 0x02#8, 0x01#8] := by decide
theorem test_sum8_wraps : sum8 [0xFF, 0xFF] = 0xFE#8 ∧ sum8 [0xD5, 0x03, 0x32, 0x01, 0x06, 0x07] = 0x18#8 := by decide
theorem test_dcs_table : dcs 0xD4 [0x02] = 0x2A#8 ∧ dcs 0xD4 [0x2C] = 0x00#8 ∧
    dcs 0xD5 [0x03, 0x32, 0x01, 0x06, 0x07] = 0xE8#8 := by decide

/-! ### One step of each instruction (at most two each) -/

/-- V4: the sum wraps. -/
theorem test_encode_V4 : answerTo dflt (encodeRequestOf 0xFF [0xFF, 0xFF]) =
    some { v1Response with odata := [0x00, 0x00, 0xFF, 0x04, 0xFC, 0xD4, 0xFF, 0xFF, 0xFF, 0x2F, 0x00] } := by decide
/-- V12: one parameter past MAX_PARAMS = 16. -/
theorem test_encode_V12 : answerTo testBuild (encodeRequestOf 0x02 (List.replicate 17 0)) =
    some (errorResponse .contractViolation) := by decide
/-- V37: bytes after the POSTAMBLE are ignored, and V38's PREAMBLE is not checked. -/
theorem test_decode_V37 : answerTo dflt (decodeRequestOf 0x04 (0x5A :: fwFrame.tail ++ [0xAA, 0x55])) =
    some fwResponse := by decide
/-- V45: LCS bad and truncated: step 3 is before step 5. -/
theorem test_decode_V45 : answerTo dflt
    (decodeRequestOf 0x04 [0x00, 0x00, 0xFF, 0x06, 0xF0, 0xD5, 0x03, 0x32, 0x01]) =
    some (errorResponse .badChecksum) := by decide
/-- V22: 4 ≥ 3. -/
theorem test_decodeMin_V22 : answerTo dflt (decodeMinRequestOf 0x03 fwFrame) = some fwResponse := by decide
/-- V23: 4 < 5. -/
theorem test_decodeMin_V23 : answerTo dflt (decodeMinRequestOf 0x05 fwFrame) =
    some (errorResponse .lengthMismatch) := by decide
/-- V48: the bytes at 7 and above are ignored. -/
theorem test_ackchk_V48 : answerTo dflt
    (ackchkRequestOf [0x01, 0x00, 0x00, 0xFF, 0x00, 0xFF, 0x00, 0xAA, 0xBB]) =
    some { errorResponse .ok with ack := true } := by decide
/-- A6 (V49): index 6 is wrong. -/
theorem test_ackchk_A6 : answerTo dflt (ackchkRequestOf [0x01, 0x00, 0x00, 0xFF, 0x00, 0xFF, 0x01]) =
    some (errorResponse .ok) := by decide
/-- V60: a reserved CTRL. -/
theorem test_reserved_V60 : answerTo dflt { ctrl := 0x00, cc := 0x02, exp := 0x00, data := [] } =
    some (errorResponse .badRequest) := by decide
/-- V66: DLEN past DATA_MAX comes before CONTRACT_VIOLATION. -/
theorem test_oversize_V66 : answerTo dflt (encodeRequestOf 0x02 (List.replicate 263 0)) =
    some (errorResponse .badRequest) := by decide +kernel

/-! ### The handshake (H1 to H7) -/

theorem test_submit_H1 : after (idleState [.submit encReq]) =
    some { State.reset with phase := .busy, reqL := some encReq, replies := [.accepted] } := by decide
theorem test_submit_held_H2 : after (busyState dflt encReq [.submit (ackchkRequestOf [])]) =
    some { busyState dflt encReq [] with replies := [.held] } := by decide
theorem test_collect_held_H3 : after (busyState dflt encReq [.collect]) =
    some { busyState dflt encReq [] with replies := [.held] } := by decide
theorem test_compute_H4 : after (busyState dflt encReq [.compute]) = some (doneState v1Response []) := by decide
theorem test_submit_held_H5 : after (doneState v1Response [.submit encReq]) =
    some { doneState v1Response [] with replies := [.held] } := by decide
theorem test_collect_H6 : after (doneState v1Response [.collect]) =
    some { State.reset with replies := [.response v1Response] } := by decide
theorem test_reset_H7 : after (busyState testBuild encReq [.reset]) = some { State.reset with build := testBuild } := by
  decide
theorem test_idle_stays : after (idleState []) = some State.reset := by decide

/-- A table word is executed by the very next step: ACKCHK of nothing read (V51). -/
theorem test_fetch_V51 : after (State.reset.withFetchWord 8 3) = some (doneState (errorResponse .ok) []) := by decide

/-! ### The assembler's text (R75, R76) -/

theorem test_asm_encode : assembleLine "ENCODE 0x4A, [0x01, 0]  ; P4".toList =
    some { ctrl := 0x01, cc := 0x4A, exp := 0x00, data := [0x01, 0x00] } := by decide
theorem test_asm_decode : assembleLine "DECODE 4,[0xFF]".toList =
    some { ctrl := 0x02, cc := 0x00, exp := 0x04, data := [0xFF] } := by decide
theorem test_asm_decode_any : assembleLine "DECODE.ANY [0x00,0xFF]".toList =
    some { ctrl := 0x06, cc := 0x00, exp := 0x00, data := [0x00, 0xFF] } := by decide
theorem test_asm_ackchk : assembleLine "ACKCHK []".toList =
    some { ctrl := 0x03, cc := 0x00, exp := 0x00, data := [] } := by decide
theorem test_asm_req : assembleLine "REQ 0x81, 0x02, 0x00, []".toList =
    some { ctrl := 0x81, cc := 0x02, exp := 0x00, data := [] } := by decide
theorem test_asm_refuses_256 : assembleLine "ENCODE 256, []".toList = none := by decide
/-- A line of ENCODE in R75's notations: one number in both, and one that 0xNN does not hold. -/
theorem test_asm_text : (AsmLine.encode 74 [74, 300]).text (fun k => k != 1) = "ENCODE 0x4A, [74, 300]".toList := by
  decide
theorem test_asm_unknown_mnemonic : assembleLine "NOP 0, []".toList = none := by decide
theorem test_asm_lines : assembleLines ["; only a comment".toList, "DECODE.MIN 3, []".toList] =
    some [{ ctrl := 0x06, cc := 0x00, exp := 0x03, data := [] }] := by decide

/-! ### Witnesses: inputs that meet each statement's hypotheses -/

theorem wit_BuildParameters_capacity : (List.replicate 253 0x00#8).length ≤ dflt.dataMax ∧
    (blockFunction dflt (encodeRequestOf 0x02 (List.replicate 253 0))).status = .ok ∧
    (blockFunction dflt (encodeRequestOf 0x02 (List.replicate 254 0))).status = .contractViolation := by decide +kernel
theorem wit_BuildParameters_dataMax : (0x03#8 ∈ ctrlMap) ∧
    (blockFunction dflt (ackchkRequestOf (List.replicate 262 0))).status = .ok ∧
    (blockFunction dflt (ackchkRequestOf (List.replicate 263 0))).status = .badRequest := by decide +kernel
theorem wit_Submit_both : (idleState []).phase = .idle ∧ (busyState dflt encReq []).phase ≠ .idle := by decide
theorem wit_Collect_both : (doneState v1Response []).phase = .done ∧ (doneState v1Response []).rspL = some v1Response ∧
    (idleState []).phase ≠ .done := by decide
theorem wit_StepDoes_each : (idleState [.submit encReq, .stay]).events = .submit encReq :: [.stay] ∧
    (idleState [.collect]).events = .collect :: [] ∧ (idleState [.reset]).events = .reset :: [] ∧
    (idleState [.compute]).events = .compute :: [] ∧ (idleState [.stay]).events = .stay :: [] ∧
    (idleState []).events = [] := by decide
theorem wit_StepRuns_compute : (busyState dflt encReq [.compute, .stay]).phase = .busy ∧
    (busyState dflt encReq [.compute, .stay]).reqL = some encReq ∧ encReq.dlen ≤ dflt.dataMax ∧
    decodeRequest encReq = .ok (.encode 0x02#8 []) ∧
    (busyState dflt encReq [.compute, .stay]).events = .compute :: [.stay] := by decide
theorem wit_StepRuns_unscheduled : (busyState dflt encReq []).phase = .busy ∧
    (busyState dflt encReq []).reqL = some encReq ∧ encReq.dlen ≤ dflt.dataMax ∧
    decodeRequest encReq = .ok (.encode 0x02#8 []) ∧ (busyState dflt encReq []).events = [] := by decide
theorem wit_FetchedWord : decodeTableWord 8 6 = some (.decodeMin 0x00#8 []) := by decide
theorem wit_Compute_latched : (busyState testBuild encReq []).phase = .busy ∧
    (busyState testBuild encReq []).reqL = some encReq := by decide
theorem wit_Idle_stays : (idleState [.collect]).phase = .idle ∧
    (idleState [.collect]).events.head? ≠ some (.submit encReq) ∧ (idleState [.collect]).events.head? ≠ some .reset ∧
    after (idleState [.collect]) = some { idleState [] with replies := [.held] } := by decide
theorem wit_Idle_head_is_no_submit : ∀ q, (idleState [.collect]).events.head? ≠ some (.submit q) := by
  intro q h; cases h
theorem wit_Phase_collect : step (doneState v1Response [.collect]) =
    .next { State.reset with replies := [.response v1Response] } := step_of_after (by decide)
theorem wit_Latches_submit : (idleState [.submit encReq]).Inv ∧
    step (idleState [.submit encReq]) =
      .next { State.reset with phase := .busy, reqL := some encReq, replies := [.accepted] } ∧
    some encReq ≠ (idleState [.submit encReq]).reqL := ⟨by decide, step_of_after (by decide), by decide⟩
theorem wit_Latches_compute : (busyState dflt encReq [.compute]).Inv ∧
    step (busyState dflt encReq [.compute]) = .next (doneState v1Response []) ∧
    some v1Response ≠ (busyState dflt encReq [.compute]).rspL := ⟨by decide, step_of_after (by decide), by decide⟩
theorem wit_BuildIsNeverWritten : run 1 (idleState [.stay]) = .next (idleState []) :=
  run_succ_of_step 0 (step_of_after (by decide))
theorem wit_Busy_leaves : (busyState dflt encReq [.stay, .stay]).Inv ∧
    (busyState dflt encReq [.stay, .stay]).phase = .busy := by decide
theorem wit_Resubmission : (busyState dflt encReq []).phase = .busy ∧
    (busyState dflt encReq []).reqL = some encReq ∧ (busyState dflt encReq []).rspL = none := by decide
/-- V11: EXP is ignored by ENCODE, so the two requests are answered alike. -/
theorem wit_LatchedRequestShows : (busyState dflt encReq [.compute, .collect]).reqL = some encReq ∧
    encReq ≠ { encReq with exp := 0x7F#8 } ∧
    blockFunction dflt encReq = blockFunction dflt { encReq with exp := 0x7F#8 } := by decide
theorem wit_CollectedResponses : (idleState [.submit encReq]).Inv ∧ (idleState [.submit encReq]).phase = .idle ∧
    run 1 (idleState [.submit encReq]) =
      .next { State.reset with phase := .busy, reqL := some encReq, replies := [.accepted] } :=
  ⟨by decide, rfl, run_succ_of_step 0 (step_of_after (by decide))⟩
theorem wit_EveryServedRequest : (idleState ([(encReq, 2, 0)].flatMap serviceOf)).phase = .idle ∧
    (idleState ([(encReq, 2, 0)].flatMap serviceOf)).reqL = none ∧
    (idleState ([(encReq, 2, 0)].flatMap serviceOf)).rspL = none ∧
    (idleState ([(encReq, 2, 0)].flatMap serviceOf)).events =
      [.submit encReq, .stay, .stay, .compute, .collect] := by decide
theorem wit_Invariant_at_the_longest_request :
    (idleState [.submit (ackchkRequestOf (List.replicate 511 0))]).Inv ∧
    ∃ t, step (idleState [.submit (ackchkRequestOf (List.replicate 511 0))]) = .next t :=
  ⟨by decide +kernel, _, rfl⟩
theorem wit_ControlByte_rejected : (0x05#8 ∉ [0x01#8, 0x02#8, 0x06#8, 0x03#8]) := by decide
theorem wit_DecodingAgrees : Instr.wf (.encode 0x02#8 (List.replicate 511 0)) = true ∧
    Request.wf { encReq with exp := 0x7F#8 } = true ∧
    decodeRequest { encReq with exp := 0x7F#8 } = .ok (.encode 0x02#8 []) := by decide +kernel
theorem wit_Reserved_by_length : dflt.dataMax < (ackchkRequestOf (List.replicate 263 0)).dlen ∧
    ¬(dflt.dataMax < (ackchkRequestOf (List.replicate 262 0)).dlen) := by decide +kernel
theorem wit_Reserved_by_control : reservedCtrl 0x04#8 ∧ reservedCtrl 0x07#8 ∧ reservedCtrl 0x08#8 := by
  refine ⟨.inl (by decide), .inr (.inl (by decide)), .inr (.inr (by decide))⟩
theorem wit_Ignored_fields : (ackchkRequestOf []).ctrl = 0x03#8 ∧ (decodeRequestOf 0 []).ctrl = 0x02#8 ∧
    (decodeMinRequestOf 0 []).ctrl = 0x06#8 ∧ encReq.ctrl = 0x01#8 := by decide
theorem wit_Assembled : Instr.wf (.decode 0xFF#8 [0xFF#8]) = true ∧ Request.wf encReq = true := by decide
/-- The greatest number of a field and the longest list that assemble, and the least of each that does not. -/
theorem wit_Assembled_bounds : (AsmLine.decodeMin 255 [255]).assemble ≠ none ∧
    256 ∈ (AsmLine.decodeMin 256 [255]).numbers ∧ 256 ∈ (AsmLine.ackchk [255, 256]).numbers ∧
    (AsmLine.decode 0 (List.replicate 511 0)).assemble ≠ none ∧
    511 < (AsmLine.decode 0 (List.replicate 512 0)).listed.length := by decide +kernel
/-- A mnemonic that R75 and R76 do not have. -/
theorem wit_LineText :
    "ENCODES".toList ∉ ["ENCODE".toList, "DECODE".toList, "DECODE.MIN".toList, "ACKCHK".toList, "DECODE.ANY".toList,
      "REQ".toList] := by decide
/-- A text with one line that does not fit is refused whole (log 20). -/
theorem test_asm_refused_together : assembleLines ["ACKCHK []".toList, "ACKCHK [256]".toList] = none := by decide
theorem wit_PortFields : Response.ack { v1Response with ack := true } = true ∧ Response.ack v1Response = false ∧
    Request.wf { encReq with data := List.replicate 511 0x00#8 } = true ∧
    Request.wf { encReq with data := [] } = true := by decide +kernel
theorem wit_Checksum_lengths : 2 ≤ (0x02#8).toNat ∧ 2 ≤ (0xFF#8).toNat := by decide
theorem wit_Identities_on_frames : dflt.wf = true ∧ encodeResult dflt 0x02#8 [] = .ok v1Response ∧
    decodeResult .exact 0x04#8 fwFrame = .ok fwResponse := by decide
theorem wit_EqualEncodeRequests : encReq.ctrl = 0x01#8 ∧ encReq ≠ { encReq with exp := 0x7F#8 } ∧
    encReq.cc = ({ encReq with exp := 0x7F#8 } : Request).cc ∧
    encReq.data = ({ encReq with exp := 0x7F#8 } : Request).data := by decide
theorem wit_Encode_both : (List.replicate 16 0x00#8).length ≤ testBuild.maxParams ∧
    testBuild.maxParams < (List.replicate 17 0x00#8).length := by decide
theorem wit_Layout_longest : dflt.wf = true ∧ (List.replicate 253 0x00#8).length ≤ dflt.maxParams := by decide +kernel
/-- V20 and V21: FW has 4 parameters. -/
theorem wit_DecodeAccepts : decodeResult .exact 0x04#8 fwFrame = .ok fwResponse ∧
    decodeResult .exact 0x03#8 fwFrame = .error .lengthMismatch := by decide
theorem wit_Expected_longest : dflt.wf = true ∧ (List.replicate 253 0x00#8).length ≤ 253 := by decide +kernel
theorem wit_BytesAfter : (byteAt v1Frame 3).toNat + 7 ≤ v1Frame.length := by decide
theorem wit_RoundTrip : testBuild.wf = true ∧ (List.replicate 16 0x00#8).length ≤ testBuild.maxParams := by decide
/-- T0 to T8 and V46: the V1 frame, and every clause's index. -/
theorem wit_Tampered : dflt.wf = true ∧ ([] : List Byte).length ≤ 253 ∧ frame 0xD4#8 (0x02#8 :: []) = v1Frame ∧
    (∀ i : Fin 9, i.val < v1Frame.length ∧ v1Frame[i.val]? ≠ some (byteAt v1Frame i.val + 1)) ∧
    (5 ≤ 5 ∧ 5 < 7 ∧ 7 ≤ 5 + 2) := by decide
theorem wit_AckPattern : dflt.wf = true := by decide
theorem wit_NoFrame : dflt.wf = true ∧ ([] : List Byte).length ≤ dflt.maxParams ∧
    (blockFunction dflt (decodeRequestOf 0x00#8 v1Frame)).status = .ok ∧
    (blockFunction dflt (decodeMinRequestOf 0x00#8 v1Frame)).status = .ok := by decide
theorem wit_ErrorResponses : (blockFunction dflt (decodeRequestOf 0x03#8 fwFrame)).status ≠ .ok := by decide
theorem wit_Statuses : (blockFunction dflt (decodeRequestOf 0x03#8 fwFrame)).status ∈
    [.badMarker, .badChecksum, .lengthMismatch] ∧
    (blockFunction dflt (encodeRequestOf 0x02#8 (List.replicate 254 0))).status = .contractViolation ∧
    (blockFunction dflt { encReq with ctrl := 0x00#8 }).status = .badRequest := by decide +kernel
theorem wit_FieldsNotProduced : encReq.ctrl ≠ 0x03#8 ∧ encReq.ctrl ≠ 0x02#8 ∧ encReq.ctrl ≠ 0x06#8 ∧
    (ackchkRequestOf []).ctrl ≠ 0x01#8 ∧ (ackchkRequestOf []).ctrl ≠ 0x02#8 ∧ (ackchkRequestOf []).ctrl ≠ 0x06#8 := by
  decide
theorem wit_ResponseBytes_longest : dflt.wf = true ∧
    (blockFunction dflt (encodeRequestOf 0x02#8 (List.replicate 253 0))).olen = 262 := by decide +kernel
theorem wit_Instructions : ∃ t, exec (.ackchk []) (idleState [.stay]) = .next t := ⟨_, rfl⟩
theorem wit_Answers_from_different_states : (idleState []).build = (busyState dflt encReq [.stay]).build ∧
    idleState [] ≠ busyState dflt encReq [.stay] := by decide

end Sys2Proof.Tests
end

/-! SUPPORT. The build parameters and the port fields as numbers, and the status each operation can answer: what the
statements about the block's scope rest on (R9, R10, R12, R60, R68, R160). -/

namespace Sys2Proof

/-! ### Builds and port fields -/

theorem Config.Build.wf_iff (b : Config.Build) :
    b.wf = true ↔ b.maxParams ≤ 253 ∧ 262 ≤ b.dataMax ∧ b.dataMax ≤ 511 := by
  simp [Config.Build.wf, and_assoc]

theorem Request.wf_iff (q : Request) : q.wf = true ↔ q.dlen ≤ 511 := by
  simp [Request.wf, fitsDlen, Request.dlen]

/-- The 9-bit field of DLEN loses nothing of a request the port can carry (R12, R60). -/
theorem Request.dlenField_toNat_of_wf {q : Request} (h : q.wf = true) : q.dlenField.toNat = q.dlen := by
  have hlt : q.dlen < 2 ^ 9 := Nat.lt_succ_of_le (q.wf_iff.mp h)
  rw [Request.dlenField, BitVec.toNat_ofNat, Nat.mod_eq_of_lt hlt]

namespace Machine

theorem Response.ackField_of_ack {r : Response} (h : r.ack = true) : r.ackField = 1#1 := by
  rw [Response.ackField, h]
  rfl

theorem Response.ackField_of_not_ack {r : Response} (h : r.ack = false) : r.ackField = 0#1 := by
  rw [Response.ackField, h]
  rfl

/-! ### The status each operation answers -/

@[simp] theorem ackResult_status (read : List Byte) : (ackResult read).status = .ok := rfl

@[simp] theorem decodedResponse_status (raw : List Byte) (len : Nat) : (decodedResponse raw len).status = .ok := rfl

/-- ENCODE answers OK or CONTRACT_VIOLATION, by its capacity alone (R104). -/
theorem encodeResult_status (b : Config.Build) (cc : Byte) (params : List Byte) :
    (responseOf (encodeResult b cc params)).status =
      if params.length ≤ b.maxParams then .ok else .contractViolation := by
  unfold encodeResult withinCapacity
  by_cases h : params.length ≤ b.maxParams
  · rw [if_pos (decide_eq_true h), if_pos h]
    rfl
  · rw [if_neg (by simp [h]), if_neg h]
    rfl

theorem encodeResult_status_eq_ok_iff (b : Config.Build) (cc : Byte) (params : List Byte) :
    (responseOf (encodeResult b cc params)).status = .ok ↔ params.length ≤ b.maxParams := by
  simp [encodeResult_status]

/-- The statuses that DECODE and DECODE.MIN answer (R110, R160). -/
def decodeStatuses : List Status := [.ok, .badMarker, .badChecksum, .lengthMismatch]

theorem decodeBody_status_mem (mode : ExpMode) (exp : Byte) (raw : List Byte) (len : Nat) :
    (responseOf (decodeBody mode exp raw len)).status ∈ decodeStatuses := by
  unfold decodeBody
  split_ifs <;> simp [decodeStatuses]

theorem decodeResult_status_mem (mode : ExpMode) (exp : Byte) (raw : List Byte) :
    (responseOf (decodeResult mode exp raw)).status ∈ decodeStatuses := by
  unfold decodeResult
  split_ifs
  · simp [decodeStatuses]
  · simp [decodeStatuses]
  · simp [decodeStatuses]
  · exact decodeBody_status_mem mode exp raw _

/-- No operation raises BAD_REQUEST: it is a request-level status (R160). -/
theorem blockFunction_status_ne_badRequest {b : Config.Build} {q : Request} (hd : q.dlen ≤ b.dataMax)
    (hc : q.ctrl ∈ ctrlMap) : (blockFunction b q).status ≠ .badRequest := by
  have hdec (mode : ExpMode) : (responseOf (decodeResult mode q.exp q.data)).status ≠ .badRequest :=
    ne_of_mem_of_not_mem (decodeResult_status_mem mode q.exp q.data) (by decide)
  rcases ctrlMap_cases hc with h | h | h | h
  · rw [blockFunction_encode hd h, encodeResult_status]
    split_ifs <;> decide
  · rw [blockFunction_decode hd h]
    exact hdec .exact
  · rw [blockFunction_decodeMin hd h]
    exact hdec .atLeast
  · rw [blockFunction_ackchk hd h, ackResult_status]
    decide

/-- A request whose CTRL is not reserved is refused exactly for its length (R10, R65). -/
theorem blockFunction_status_eq_badRequest_iff {b : Config.Build} {q : Request} (hc : q.ctrl ∈ ctrlMap) :
    (blockFunction b q).status = .badRequest ↔ b.dataMax < q.dlen := by
  constructor
  · intro hs
    by_contra hd
    exact blockFunction_status_ne_badRequest (Nat.le_of_not_lt hd) hc hs
  · intro hd
    rw [blockFunction_of_oversize hd, Response.error_status]

/-! ### The statements about the block's scope -/

/-- Settles O2: the length check comes before every operation, ENCODE's own check is its capacity, and no operation
raises BAD_REQUEST. -/
theorem buildParametersBoundTheirOperations : Obligations.BuildParametersBoundTheirOperations := by
  refine ⟨rfl, Config.Build.wf_iff, fun b cc params hd => ?_, fun b q => blockFunction_status_eq_badRequest_iff⟩
  rw [blockFunction_encode (q := encodeRequestOf cc params) hd rfl]
  exact encodeResult_status_eq_ok_iff b cc params

/-- Settles O50: the 511 bytes a request can carry are fewer than the 2^9 counts of DLEN's field; PHASE and ACK hold
their numbers by definition. -/
theorem portFieldsHoldTheirValues : Obligations.PortFieldsHoldTheirValues :=
  ⟨⟨rfl, rfl, rfl⟩, fun _ => ⟨Response.ackField_of_ack, Response.ackField_of_not_ack⟩,
    fun _ => Request.dlenField_toNat_of_wf⟩

end Machine
end Sys2Proof

/-! SUPPORT. The state: what a compute step latches (F of the request, well formed), and which of the invariant, PHASE,
the latches and the build a step keeps, each read off the cases of a step (R22 to R31, R161, R163, R196). -/

namespace Sys2Proof.Machine

/-! ### The step's answer is F -/

/-- The decoder takes exactly the CTRL values of R62. -/
theorem decodeCtrl_isOk_iff : ∀ c : Byte, (decodeCtrl c).isOk = true ↔ c ∈ ctrlMap := by decide

section
variable {b : Config.Build} {q : Request}

theorem checkRequest_of_ctrl {op : Opcode} (hd : q.dlen ≤ b.dataMax) (hc : decodeCtrl q.ctrl = .ok op) :
    checkRequest b q = .ok (op.withOperands q) := by
  simp [checkRequest, acceptsLength, decodeRequest, hd, hc]

theorem checkRequest_of_refused (h : b.dataMax < q.dlen ∨ q.ctrl ∉ ctrlMap) :
    checkRequest b q = .error .badRequest := by
  rcases h with hd | hc
  · simp [checkRequest, acceptsLength, Nat.not_le.mpr hd]
  · rw [← decodeCtrl_isOk_iff] at hc
    cases hop : decodeCtrl q.ctrl with
    | ok op => exact absurd (by rw [hop]; rfl) hc
    | error e => simp [checkRequest, decodeRequest, hop]

theorem answered_of_ctrl {op : Opcode} (hd : q.dlen ≤ b.dataMax) (hc : decodeCtrl q.ctrl = .ok op) :
    answered b q = answer b (op.withOperands q) := by
  simp [answered, checkRequest_of_ctrl hd hc]

theorem answered_of_refused (h : b.dataMax < q.dlen ∨ q.ctrl ∉ ctrlMap) :
    answered b q = Response.error .badRequest := by
  simp [answered, checkRequest_of_refused h]

/-- F by cases: the request is refused at the request level, or one of R62's four operations answers it (R161). -/
theorem blockFunction_cases {P : Response → Prop}
    (refused : b.dataMax < q.dlen ∨ q.ctrl ∉ ctrlMap → P (Response.error .badRequest))
    (encode : q.dlen ≤ b.dataMax → q.ctrl = 0x01#8 → P (responseOf (encodeResult b q.cc q.data)))
    (decode : q.dlen ≤ b.dataMax → q.ctrl = 0x02#8 → P (responseOf (decodeResult .exact q.exp q.data)))
    (decodeMin : q.dlen ≤ b.dataMax → q.ctrl = 0x06#8 → P (responseOf (decodeResult .atLeast q.exp q.data)))
    (ackchk : q.dlen ≤ b.dataMax → q.ctrl = 0x03#8 → P (ackResult q.data)) :
    P (blockFunction b q) := by
  by_cases hd : q.dlen ≤ b.dataMax
  · by_cases hc : q.ctrl ∈ ctrlMap
    · rcases ctrlMap_cases hc with h | h | h | h
      · exact blockFunction_encode hd h ▸ encode hd h
      · exact blockFunction_decode hd h ▸ decode hd h
      · exact blockFunction_decodeMin hd h ▸ decodeMin hd h
      · exact blockFunction_ackchk hd h ▸ ackchk hd h
    · exact blockFunction_of_reserved hc ▸ refused (.inr hc)
  · exact blockFunction_of_oversize (Nat.lt_of_not_le hd) ▸ refused (.inl (Nat.lt_of_not_le hd))

end

/-- What a compute step answers, through the decoder and `exec`, is F of the latched request (R161, R196). -/
theorem answered_eq_blockFunction (b : Config.Build) (q : Request) : answered b q = blockFunction b q := by
  refine blockFunction_cases (P := (answered b q = ·)) answered_of_refused (fun hd h => ?_) (fun hd h => ?_)
    (fun hd h => ?_) (fun hd h => ?_)
  · exact answered_of_ctrl (op := .encode) hd (h ▸ by decide)
  · exact answered_of_ctrl (op := .decode) hd (h ▸ by decide)
  · exact answered_of_ctrl (op := .decodeMin) hd (h ▸ by decide)
  · exact answered_of_ctrl (op := .ackchk) hd (h ▸ by decide)

/-! ### What a response holds -/

/-- What holds of an operation's OK response and of every error response holds of the response it ends in. -/
theorem responseOf_cases {P : Response → Prop} {x : Except Status Response} (ok : ∀ r, x = .ok r → P r)
    (error : ∀ st, P (Response.error st)) : P (responseOf x) := by
  cases x with
  | ok r => exact ok r rfl
  | error st => exact error st

/-- The only OK response of DECODE is the one read off the frame (R110). -/
theorem eq_decodedResponse_of_decodeResult {mode : ExpMode} {exp : Byte} {raw : List Byte} {r : Response}
    (h : decodeResult mode exp raw = .ok r) : r = decodedResponse raw (byteAt raw 3).toNat := by
  obtain ⟨-, -, -, -, hbody⟩ := decodeResult_eq_ok_iff.mp h
  obtain ⟨-, -, -, -, -, hr⟩ := decodeBody_eq_ok_iff.mp hbody
  exact hr

theorem Response.wf_iff (r : Response) :
    r.wf = true ↔ r.olen ≤ 262 ∧ (r.status = .ok ∨ r = Response.error r.status) := by
  simp [Response.wf]

@[simp] theorem Response.error_wf (st : Status) : (Response.error st).wf = true :=
  (Response.wf_iff _).mpr ⟨Nat.zero_le _, .inr rfl⟩

theorem Response.wf_of_ok {r : Response} (hs : r.status = .ok) (hl : r.odata.length ≤ 262) : r.wf = true :=
  r.wf_iff.mpr ⟨hl, .inl hs⟩

/-- ENCODE's longest frame is that of 253 parameters: 262 bytes (R9, R28). -/
theorem encodeResult_wf {b : Config.Build} (hb : b.wf = true) (cc : Byte) (params : List Byte) :
    (responseOf (encodeResult b cc params)).wf = true := by
  refine responseOf_cases (P := (·.wf = true)) (fun r hr => ?_) Response.error_wf
  obtain ⟨hcap, rfl⟩ := encodeResult_eq_ok_iff.mp hr
  obtain ⟨hmax, -, -⟩ := b.wf_iff.mp hb
  have hlen : (frame tfiOut (cc :: params)).length ≤ 262 := by
    rw [length_frame, List.length_cons]
    omega
  exact Response.wf_of_ok rfl hlen

/-- DECODE answers at most LEN - 2 bytes, and LEN is a byte (R110). -/
theorem decodeResult_wf (mode : ExpMode) (exp : Byte) (raw : List Byte) :
    (responseOf (decodeResult mode exp raw)).wf = true := by
  refine responseOf_cases (P := (·.wf = true)) (fun r hr => ?_) Response.error_wf
  rw [eq_decodedResponse_of_decodeResult hr]
  have hlen : (decodedResponse raw (byteAt raw 3).toNat).odata.length ≤ 262 := by
    have hbyte := (byteAt raw 3).isLt
    rw [decodedResponse, length_slice]
    omega
  exact Response.wf_of_ok rfl hlen

theorem ackResult_wf (read : List Byte) : (ackResult read).wf = true := Response.wf_of_ok rfl (Nat.zero_le _)

/-- Every response of a build in range is one the block can hold (R28, R163). -/
theorem blockFunction_wf {b : Config.Build} (hb : b.wf = true) (q : Request) : (blockFunction b q).wf = true :=
  blockFunction_cases (P := (·.wf = true)) (fun _ => Response.error_wf _) (fun _ _ => encodeResult_wf hb q.cc q.data)
    (fun _ _ => decodeResult_wf .exact q.exp q.data) (fun _ _ => decodeResult_wf .atLeast q.exp q.data)
    (fun _ _ => ackResult_wf q.data)

/-- The 9-bit field of OLEN loses nothing of a response the block can hold (R28, R68). -/
theorem Response.olenField_toNat_of_wf {r : Response} (h : r.wf = true) : r.olenField.toNat = r.olen := by
  have hlt : r.olen < 2 ^ 9 := Nat.lt_of_le_of_lt (r.wf_iff.mp h).1 (by decide)
  rw [Response.olenField, BitVec.toNat_ofNat, Nat.mod_eq_of_lt hlt]

/-- ENCODE produces bytes and no other field (R69). -/
theorem encodeResult_fields (b : Config.Build) (cc : Byte) (params : List Byte) :
    (responseOf (encodeResult b cc params)).ack = false ∧ (responseOf (encodeResult b cc params)).tfi = 0x00#8 ∧
      (responseOf (encodeResult b cc params)).code = 0x00#8 := by
  refine responseOf_cases (P := fun r => r.ack = false ∧ r.tfi = 0x00#8 ∧ r.code = 0x00#8) (fun r hr => ?_)
    fun st => ⟨rfl, rfl, rfl⟩
  obtain ⟨-, rfl⟩ := encodeResult_eq_ok_iff.mp hr
  exact ⟨rfl, rfl, rfl⟩

/-- DECODE and DECODE.MIN give no verdict (R69). -/
theorem decodeResult_ack (mode : ExpMode) (exp : Byte) (raw : List Byte) :
    (responseOf (decodeResult mode exp raw)).ack = false := by
  refine responseOf_cases (P := (·.ack = false)) (fun r hr => ?_) Response.error_ack
  rw [eq_decodedResponse_of_decodeResult hr]
  rfl

section
variable (b : Config.Build) {q : Request}

/-- Only ACKCHK gives a verdict (R68, R69). -/
theorem blockFunction_ack_of_not_ackchk (h : q.ctrl ≠ 0x03#8) : (blockFunction b q).ack = false :=
  blockFunction_cases (P := (·.ack = false)) (fun _ => rfl) (fun _ _ => (encodeResult_fields b q.cc q.data).1)
    (fun _ _ => decodeResult_ack .exact q.exp q.data) (fun _ _ => decodeResult_ack .atLeast q.exp q.data)
    (fun _ hc => absurd hc h)

/-- Only DECODE and DECODE.MIN give a TFI and a response code (R68, R69). -/
theorem blockFunction_tfi_code_of_not_decode (h : q.ctrl ≠ 0x02#8) (hmin : q.ctrl ≠ 0x06#8) :
    (blockFunction b q).tfi = 0x00#8 ∧ (blockFunction b q).code = 0x00#8 :=
  blockFunction_cases (P := fun r => r.tfi = 0x00#8 ∧ r.code = 0x00#8) (fun _ => ⟨rfl, rfl⟩)
    (fun _ _ => (encodeResult_fields b q.cc q.data).2) (fun _ hc => absurd hc h) (fun _ hc => absurd hc hmin)
    (fun _ _ => ⟨rfl, rfl⟩)

/-- Only ENCODE, DECODE and DECODE.MIN give bytes (R68, R69). -/
theorem blockFunction_odata_of_ackchk_or_reserved (henc : q.ctrl ≠ 0x01#8) (h : q.ctrl ≠ 0x02#8)
    (hmin : q.ctrl ≠ 0x06#8) : (blockFunction b q).odata = [] :=
  blockFunction_cases (P := (·.odata = [])) (fun _ => rfl) (fun _ hc => absurd hc henc) (fun _ hc => absurd hc h)
    (fun _ hc => absurd hc hmin) (fun _ _ => rfl)

end

/-! ### The invariant -/

section
variable {s t : State}

theorem inv_of_idle (hb : s.build.wf = true) (hp : s.phase = .idle) (hq : s.reqL = none) (hr : s.rspL = none)
    (hes : s.events.all Event.wf = true) : s.Inv := by
  simp [State.Inv, hb, hp, hq, hr, hes]

theorem inv_of_busy {q : Request} (hb : s.build.wf = true) (hp : s.phase = .busy) (hq : s.reqL = some q)
    (hqwf : q.wf = true) (hr : s.rspL = none) (hes : s.events.all Event.wf = true) : s.Inv := by
  simp [State.Inv, hb, hp, hq, hqwf, hr, hes]

theorem inv_of_done {r : Response} (hb : s.build.wf = true) (hp : s.phase = .done) (hq : s.reqL = none)
    (hr : s.rspL = some r) (hrwf : r.wf = true) (hes : s.events.all Event.wf = true) : s.Inv := by
  simp [State.Inv, hb, hp, hq, hr, hrwf, hes]

theorem State.Inv.phase_of_reqL (h : s.Inv) (hq : s.reqL ≠ none) : s.phase = .busy :=
  have ⟨_, hbusy, _⟩ := h
  hbusy.mp (Option.isSome_iff_ne_none.mpr hq)

theorem State.Inv.phase_of_rspL (h : s.Inv) (hr : s.rspL ≠ none) : s.phase = .done :=
  have ⟨_, _, hdone, _⟩ := h
  hdone.mp (Option.isSome_iff_ne_none.mpr hr)

theorem State.Inv.reqL_eq_none (h : s.Inv) (hp : s.phase ≠ .busy) : s.reqL = none :=
  not_not.mp (mt h.phase_of_reqL hp)

theorem State.Inv.rspL_eq_none (h : s.Inv) (hp : s.phase ≠ .done) : s.rspL = none :=
  not_not.mp (mt h.phase_of_rspL hp)

/-- The invariant does not read the replies, and of the events only that they are well formed. -/
theorem State.Inv.withPort (h : s.Inv) {es : List Event} (hes : es.all Event.wf = true) (rs : List Reply) :
    State.Inv { s with events := es, replies := rs } :=
  have ⟨hb, hbusy, hdone, hqwf, hrwf, _⟩ := h
  ⟨hb, hbusy, hdone, hqwf, hrwf, hes⟩

/-! ### What every step keeps -/

theorem StepCase.build_eq (hc : StepCase s t) : t.build = s.build := by
  cases hc <;> rfl

theorem StepCase.events_eq_tail (hc : StepCase s t) : t.events = s.events.tail := by
  cases hc with
  | computed | notEnabled => rfl
  | submitAccepted _ _ he | submitHeld _ _ he | collected _ _ he | collectHeld _ he | reset _ he | stayed _ he =>
    rw [he, List.tail_cons]

theorem StepCase.inv (hc : StepCase s t) (h : s.Inv) : t.Inv := by
  have ⟨hb, _, _, _, _, hes⟩ := h
  have hes' : t.events.all Event.wf = true := by
    rw [hc.events_eq_tail]
    exact List.all_eq_true.mpr fun e he => List.all_eq_true.mp hes e (List.mem_of_mem_tail he)
  cases hc with
  | submitAccepted q rest he hp =>
    have hqwf : q.wf = true := List.all_eq_true.mp hes (.submit q) (by simp [he])
    exact inv_of_busy hb rfl rfl hqwf (h.rspL_eq_none (by simp [hp])) hes'
  | submitHeld | collectHeld | notEnabled | stayed => exact h.withPort hes' _
  | collected r rest he hp hr => exact inv_of_idle hb rfl (h.reqL_eq_none (by simp [hp])) rfl hes'
  | reset rest he => exact inv_of_idle hb rfl rfl rfl hes'
  | computed q he hp hq =>
    have hrwf : (answered s.build q).wf = true := answered_eq_blockFunction s.build q ▸ blockFunction_wf hb q
    exact inv_of_done hb rfl rfl rfl hrwf hes'

/-- What every step keeps holds at the end of a run when it holds at the start. -/
theorem run_keeps {P : State → Prop} (hstep : ∀ u v : State, P u → step u = .next v → P v) {k : Nat} (hs : P s)
    (h : run k s = .next t) : P t := by
  induction k generalizing s with
  | zero => cases h; exact hs
  | succ k ih =>
    obtain ⟨u, hu, -⟩ := step_cases s
    rw [run_succ_of_step k hu] at h
    exact ih (hstep s u hs hu) h

/-! ### Which step changes PHASE and the latches -/

theorem blockMoves.nil_or_head {es : List Event} (h : blockMoves es) : es = [] ∨ es.head? = some .compute := by
  rcases h with h | ⟨rest, rfl⟩
  · exact .inl h
  · exact .inr rfl

theorem head?_of_eq_cons {es rest : List Event} {e : Event} (h : es = e :: rest) : es.head? = some e := by
  rw [h, List.head?_cons]

theorem StepCase.reqL_change (hc : StepCase s t) (h : s.Inv) (hne : t.reqL ≠ s.reqL) :
    (∃ q, s.phase = .idle ∧ s.events.head? = some (.submit q) ∧ t.reqL = some q) ∨
    (s.phase = .busy ∧ t.reqL = none ∧
      (s.events = [] ∨ s.events.head? = some .compute ∨ s.events.head? = some .reset)) := by
  cases hc with
  | submitAccepted q rest he hp => exact .inl ⟨q, hp, head?_of_eq_cons he, rfl⟩
  | submitHeld | collected | collectHeld | notEnabled | stayed => exact absurd rfl hne
  | reset rest he => exact .inr ⟨h.phase_of_reqL hne.symm, rfl, .inr (.inr (head?_of_eq_cons he))⟩
  | computed q he hp hq => exact .inr ⟨hp, rfl, he.nil_or_head.imp_right .inl⟩

theorem StepCase.rspL_change (hc : StepCase s t) (h : s.Inv) (hne : t.rspL ≠ s.rspL) :
    (∃ q, s.phase = .busy ∧ s.reqL = some q ∧ (s.events = [] ∨ s.events.head? = some .compute) ∧
      t.rspL = some (blockFunction s.build q)) ∨
    (s.phase = .done ∧ t.rspL = none ∧
      (s.events.head? = some .collect ∨ s.events.head? = some .reset)) := by
  cases hc with
  | submitAccepted | submitHeld | collectHeld | notEnabled | stayed => exact absurd rfl hne
  | collected r rest he hp hr => exact .inr ⟨hp, rfl, .inl (head?_of_eq_cons he)⟩
  | reset rest he => exact .inr ⟨h.phase_of_rspL hne.symm, rfl, .inr (head?_of_eq_cons he)⟩
  | computed q he hp hq =>
    exact .inl ⟨q, hp, hq, he.nil_or_head, congrArg some (answered_eq_blockFunction s.build q)⟩

end

/-! ### Two runs that differ in the latched request -/

/-- Two states that are the same, or are both in BUSY and differ only in the latched request, which F answers alike. -/
inductive DifferInLatch : State → State → Prop where
  | same (s : State) : DifferInLatch s s
  | latched {s : State} {q q' : Request} (hp : s.phase = .busy) (hq : s.reqL = some q)
      (hF : blockFunction s.build q = blockFunction s.build q') : DifferInLatch s { s with reqL := some q' }

theorem DifferInLatch.replies_eq {s s' : State} (h : DifferInLatch s s') : s'.replies = s.replies := by
  cases h <;> rfl

theorem DifferInLatch.phase_eq {s s' : State} (h : DifferInLatch s s') : s'.phase = s.phase := by
  cases h <;> rfl

theorem handle_submit_of_not_idle {s : State} (q : Request) (h : s.phase ≠ .idle) :
    handle (.submit q) s = .next (s.shown .held) := by
  rw [handle, submit_of_not_idle q h]

theorem handle_collect_of_not_done {s : State} (h : s.phase ≠ .done) : handle .collect s = .next (s.shown .held) := by
  rcases collect_cases s with ⟨r, hp, -, -⟩ | ⟨-, hc⟩
  · exact absurd hp h
  · rw [handle, hc]

/-- Computing empties REQ_L and latches F of it, and so makes the two states the same. -/
theorem compute_of_latched {s : State} {q q' : Request} (hp : s.phase = .busy) (hq : s.reqL = some q)
    (hF : blockFunction s.build q = blockFunction s.build q') :
    compute { s with reqL := some q' } = compute s := by
  rw [compute_of_busy (s := { s with reqL := some q' }) hp rfl, compute_of_busy hp hq,
    answered_eq_blockFunction, answered_eq_blockFunction, hF]
  rfl

/-- An event finds BUSY alike whatever is latched: computing and a reset make the two states the same, and no other
event reads or writes the latch. -/
theorem handle_of_latched (e : Event) {s : State} {q q' : Request} (hp : s.phase = .busy) (hq : s.reqL = some q)
    (hF : blockFunction s.build q = blockFunction s.build q') :
    ∃ t t', handle e s = .next t ∧ handle e { s with reqL := some q' } = .next t' ∧ DifferInLatch t t' := by
  cases e with
  | submit r =>
    have hidle : s.phase ≠ .idle := by simp [hp]
    exact ⟨_, _, handle_submit_of_not_idle r hidle, handle_submit_of_not_idle r hidle, .latched hp hq hF⟩
  | collect =>
    have hdone : s.phase ≠ .done := by simp [hp]
    exact ⟨_, _, handle_collect_of_not_done hdone, handle_collect_of_not_done hdone, .latched hp hq hF⟩
  | reset => exact ⟨_, _, rfl, rfl, .same _⟩
  | compute =>
    have hc := compute_of_busy hp hq
    exact ⟨_, _, hc, (compute_of_latched hp hq hF).trans hc, .same _⟩
  | stay => exact ⟨_, _, rfl, rfl, .latched hp hq hF⟩

/-- Two such states step alike; with no event left the block computes. -/
theorem DifferInLatch.step {s s' : State} (h : DifferInLatch s s') :
    ∃ t t', Machine.step s = .next t ∧ Machine.step s' = .next t' ∧ DifferInLatch t t' := by
  cases h with
  | same =>
    obtain ⟨t, ht, -⟩ := step_cases s
    exact ⟨t, t, ht, ht, .same t⟩
  | @latched q q' hp hq hF =>
    by_cases hnil : s.events = []
    · rw [step_of_nil hnil, step_of_nil (s := { s with reqL := some q' }) hnil]
      exact handle_of_latched .compute hp hq hF
    · obtain ⟨e, rest, he⟩ := List.exists_cons_of_ne_nil hnil
      rw [step_of_cons he, step_of_cons (s := { s with reqL := some q' }) he]
      exact handle_of_latched e (s := { s with events := rest }) hp hq hF

/-- Two such runs of any length end in two such states. -/
theorem DifferInLatch.run {s s' : State} (h : DifferInLatch s s') (k : Nat) :
    ∃ t t', Machine.run k s = .next t ∧ Machine.run k s' = .next t' ∧ DifferInLatch t t' := by
  induction k generalizing s s' with
  | zero => exact ⟨s, s', rfl, rfl, h⟩
  | succ k ih =>
    obtain ⟨u, u', hu, hu', hd⟩ := h.step
    rw [run_succ_of_step k hu, run_succ_of_step k hu']
    exact ih hd

/-! ### The statements about the state -/

/-- Settles O19: each case of a step leaves IDLE, BUSY or DONE with the latches that phase asks for, and F's response is
one the block can hold. -/
theorem everyStepKeepsTheInvariant : Obligations.EveryStepKeepsTheInvariant :=
  fun _ _ hs h => (stepCase_of_step h).inv hs

/-- Settles O10: read off the cases of a step. -/
theorem phaseMovesOnlyAlongTheHandshake : Obligations.PhaseMovesOnlyAlongTheHandshake := by
  intro s t h
  cases stepCase_of_step h with
  | submitAccepted q rest he hp => exact .inr (.inl ⟨hp, rfl, q, head?_of_eq_cons he⟩)
  | submitHeld | collectHeld | notEnabled | stayed => exact .inl rfl
  | computed q he hp hq => exact .inr (.inr (.inl ⟨hp, rfl, he.nil_or_head⟩))
  | collected r rest he hp hr => exact .inr (.inr (.inr (.inl ⟨hp, rfl, head?_of_eq_cons he⟩)))
  | reset rest he => exact .inr (.inr (.inr (.inr ⟨rfl, head?_of_eq_cons he⟩)))

/-- Settles O11: read off the cases of a step; the invariant says in which phase a reset finds a latch filled. -/
theorem latchesChangeOnlyByTheirTransitions : Obligations.LatchesChangeOnlyByTheirTransitions :=
  fun _ _ hs h => ⟨(stepCase_of_step h).reqL_change hs, (stepCase_of_step h).rspL_change hs⟩

/-- Settles O12: no case of a step writes the build. -/
theorem buildIsNeverWritten : Obligations.BuildIsNeverWritten := fun _ s _ h =>
  run_keeps (P := (·.build = s.build)) (fun _ _ hu hv => (stepCase_of_step hv).build_eq.trans hu) rfl h

/-- Settles O15: the two runs stay the same but for the latch until a compute or a reset makes them the same. -/
theorem latchedRequestShowsOnlyThroughItsResponse : Obligations.LatchedRequestShowsOnlyThroughItsResponse := by
  intro s q q' hp hq hF k
  obtain ⟨t, t', ht, ht', hd⟩ := (DifferInLatch.latched hp hq hF).run k
  exact ⟨t, t', ht, ht', hd.replies_eq, hd.phase_eq⟩

/-- Settles O45: F by cases, with what each operation produces. -/
theorem fieldsNotProducedAreZero : Obligations.FieldsNotProducedAreZero := fun b _ =>
  ⟨blockFunction_ack_of_not_ackchk b, blockFunction_tfi_code_of_not_decode b,
    blockFunction_odata_of_ackchk_or_reserved b⟩

/-- Settles O46: every response is one the block can hold, and 262 is less than the 2^9 counts of OLEN's field. -/
theorem responseBytesFitTheirField : Obligations.ResponseBytesFitTheirField := fun b q hb =>
  have hwf := blockFunction_wf hb q
  ⟨((blockFunction b q).wf_iff.mp hwf).1, Response.olenField_toNat_of_wf hwf⟩

/-- Settles O18: reset leaves IDLE with both latches empty and no event to come, in the default build, which is in
range. -/
theorem resetMeetsTheInvariant : Obligations.ResetMeetsTheInvariant := inv_of_idle (by decide) rfl rfl rfl rfl

/-- Settles O48: an instruction completes with its answer, which takes nothing of the state but the build. -/
theorem answersDoNotDependOnEarlierState : Obligations.AnswersDoNotDependOnEarlierState := fun i s s' hb =>
  ⟨_, _, exec_eq_complete i s, exec_eq_complete i s', by rw [State.complete_rspL, State.complete_rspL, hb]⟩

end Sys2Proof.Machine

/-! SUPPORT. The memory: the block holds at most what it still owes the requester, so that no step makes up, repeats or
reorders a response (R45, R46), and the run of one request served from submit to collect (R193, R194, R196). -/

namespace Sys2Proof.Machine

/-! ### What is presented and what is delivered -/

@[simp] theorem presented_append (es es' : List Event) : presented (es ++ es') = presented es ++ presented es' :=
  List.filterMap_append

@[simp] theorem delivered_append (rs rs' : List Reply) : delivered (rs ++ rs') = delivered rs ++ delivered rs' :=
  List.filterMap_append

@[simp] theorem presented_submit (q : Request) : presented [.submit q] = [q] := rfl

@[simp] theorem delivered_accepted : delivered [.accepted] = [] := rfl

@[simp] theorem delivered_held : delivered [.held] = [] := rfl

@[simp] theorem delivered_response (r : Response) : delivered [.response r] = [r] := rfl

/-! ### What the block still owes -/

/-- The responses the block can still hand over if no more is submitted: RSP_L, and F of REQ_L after it. -/
def inFlight (s : State) : List Response := s.rspL.toList ++ s.reqL.toList.map (blockFunction s.build)

/-- The responses delivered so far, and then those in flight. -/
def owed (s : State) : List Response := delivered s.replies ++ inFlight s

theorem inFlight_of_idle {s : State} (h : s.Inv) (hp : s.phase = .idle) : inFlight s = [] := by
  simp [inFlight, h.reqL_eq_none (by simp [hp]), h.rspL_eq_none (by simp [hp])]

section
variable {s t : State}

/-- A step adds to what is owed at most F of the request its event presents, after all that was owed before. -/
theorem StepCase.owed_sublist (hc : StepCase s t) :
    (owed t).Sublist (owed s ++ (presented (s.events.take 1)).map (blockFunction s.build)) := by
  cases hc with
  | submitAccepted q rest he hp => simp [owed, inFlight, he]
  | submitHeld | collectHeld | notEnabled | stayed => simp [owed, inFlight]
  | collected r rest he hp hr => simp [owed, inFlight, hr]
  | reset rest he => simp [owed, inFlight]
  | computed q he hp hq => simp [owed, inFlight, hq, answered_eq_blockFunction]

/-- The port only adds to what it has shown. -/
theorem StepCase.replies_prefix (hc : StepCase s t) : s.replies <+: t.replies := by
  cases hc with
  | submitAccepted | submitHeld | collected | collectHeld => exact List.prefix_append _ _
  | reset | computed | notEnabled | stayed => exact List.prefix_rfl

/-- Over a run what is owed grows by at most F of the requests presented in it, in their order. -/
theorem owed_sublist_of_run {k : Nat} (h : run k s = .next t) :
    (owed t).Sublist (owed s ++ (presented (s.events.take k)).map (blockFunction s.build)) := by
  induction k generalizing s with
  | zero => cases h; simp
  | succ k ih =>
    obtain ⟨u, hu, hc⟩ := step_cases s
    rw [run_succ_of_step k hu] at h
    have hrest := ih h
    rw [hc.build_eq, hc.events_eq_tail] at hrest
    have hsplit : s.events.take (k + 1) = s.events.take 1 ++ s.events.tail.take k := by
      rw [Nat.add_comm, List.take_add, List.drop_one]
    rw [hsplit, presented_append, List.map_append, ← List.append_assoc]
    exact hrest.trans (hc.owed_sublist.append_right _)

theorem replies_prefix_of_run {k : Nat} (h : run k s = .next t) : s.replies <+: t.replies :=
  run_keeps (P := (s.replies <+: ·.replies)) (fun _ _ hu hv => hu.trans (stepCase_of_step hv).replies_prefix)
    List.prefix_rfl h

end

/-! ### One request served -/

section
variable {s : State} {rest : List Event}

theorem step_submit {q : Request} (hp : s.phase = .idle) (he : s.events = .submit q :: rest) :
    step s = .next { s with
      events := rest, phase := .busy, reqL := some q, replies := s.replies ++ [.accepted] } := by
  rw [step_of_cons he, handle, submit_of_idle (s := { s with events := rest }) q hp]
  rfl

theorem step_compute {q : Request} (hp : s.phase = .busy) (hq : s.reqL = some q) (he : s.events = .compute :: rest) :
    step s = .next { s with
      events := rest, phase := .done, reqL := none, rspL := some (blockFunction s.build q) } := by
  rw [step_of_cons he, handle, compute_of_busy (s := { s with events := rest }) hp hq, answered_eq_blockFunction]
  rfl

theorem step_collect {r : Response} (hp : s.phase = .done) (hr : s.rspL = some r) (he : s.events = .collect :: rest) :
    step s = .next { s with
      events := rest, phase := .idle, rspL := none, replies := s.replies ++ [.response r] } := by
  rw [step_of_cons he, handle, collect_of_done (s := { s with events := rest }) hp hr]
  rfl

/-- A finite stay uses up its events and changes nothing else. -/
theorem run_stays (n : Nat) (he : s.events = List.replicate n .stay ++ rest) :
    run n s = .next { s with events := rest } := by
  induction n generalizing s with
  | zero =>
    rw [List.replicate_zero, List.nil_append] at he
    rw [run_zero, ← he]
  | succ n ih => rw [run_succ_of_step n (step_of_cons he)]; exact ih rfl

/-- BUSY is left by the compute step after a finite stay. -/
theorem run_stays_compute {q : Request} (n : Nat) (hp : s.phase = .busy) (hq : s.reqL = some q)
    (he : s.events = List.replicate n .stay ++ .compute :: rest) :
    run (n + 1) s = .next { s with
      events := rest, phase := .done, reqL := none, rspL := some (blockFunction s.build q) } := by
  rw [run_add_of_run 1 (run_stays n he)]
  exact run_succ_of_step 0 (step_compute hp hq rfl)

/-- DONE is left by the collect after a finite stay. -/
theorem run_stays_collect {r : Response} (n : Nat) (hp : s.phase = .done) (hr : s.rspL = some r)
    (he : s.events = List.replicate n .stay ++ .collect :: rest) :
    run (n + 1) s = .next { s with
      events := rest, phase := .idle, rspL := none, replies := s.replies ++ [.response r] } := by
  rw [run_add_of_run 1 (run_stays n he)]
  exact run_succ_of_step 0 (step_collect hp hr rfl)

theorem length_serviceOf (x : Request × Nat × Nat) : (serviceOf x).length = (x.2.1 + 1) + (x.2.2 + 1) + 1 := by
  simp only [serviceOf, List.length_append, List.length_replicate, List.length_singleton]
  omega

/-- A request served from IDLE is accepted and answered with F of it, and the block is as it was. -/
theorem run_serviceOf (x : Request × Nat × Nat) (hp : s.phase = .idle) (hq : s.reqL = none) (hr : s.rspL = none)
    (he : s.events = serviceOf x ++ rest) :
    run (serviceOf x).length s = .next { s with
      events := rest
      replies := s.replies ++ [.accepted, .response (blockFunction s.build x.1)] } := by
  obtain ⟨q, n, m⟩ := x
  simp only [serviceOf, List.append_assoc, List.cons_append, List.nil_append] at he
  rw [length_serviceOf, run_succ_of_step _ (step_submit hp he),
    run_add_of_run _ (run_stays_compute n rfl rfl rfl), run_stays_collect m rfl rfl rfl, List.append_assoc, hp, hq, hr]
  rfl

end

/-! ### The statements about the memory -/

/-- Settles O16: what is owed only grows by F of the requests presented, in order; in IDLE it is what was delivered,
and what is delivered later begins with that. -/
theorem collectedResponsesAreInSubmissionOrder : Obligations.CollectedResponsesAreInSubmissionOrder := by
  intro k s t hs hp h
  obtain ⟨rs, hrs⟩ := replies_prefix_of_run h
  have hd : delivered t.replies = delivered s.replies ++ delivered rs := by rw [← hrs, delivered_append]
  have howed := owed_sublist_of_run h
  rw [owed, owed, inFlight_of_idle hs hp, List.append_nil, hd, List.append_assoc,
    List.append_sublist_append_left] at howed
  obtain ⟨qs, hqs, heq⟩ := List.sublist_map_iff.mp ((List.sublist_append_left _ _).trans howed)
  exact ⟨qs, hqs, by rw [hd, heq]⟩

/-- Settles O17: by induction on the requests, each of them served from IDLE to IDLE. -/
theorem everyServedRequestIsAnswered : Obligations.EveryServedRequestIsAnswered := by
  intro s xs hp hq hr he
  induction xs generalizing s with
  | nil =>
    rw [List.flatMap_nil] at he
    rw [he, List.length_nil, run_zero, List.flatMap_nil, List.append_nil, ← he]
  | cons x xs ih =>
    rw [List.flatMap_cons] at he
    have hrest := ih { s with
      events := xs.flatMap serviceOf
      replies := s.replies ++ [.accepted, .response (blockFunction s.build x.1)] } hp hq hr rfl
    rw [he, List.length_append, run_add_of_run _ (run_serviceOf x hp hq hr he), hrest, List.flatMap_cons,
      List.append_assoc]

/-- Settles O47: all an instruction does is complete with its answer, which writes PHASE and the two latches. -/
theorem instructionsChangeOnlyTheHandshake : Obligations.InstructionsChangeOnlyTheHandshake := by
  intro i s t h
  rw [exec_eq_complete] at h
  cases h
  exact ⟨rfl, rfl, rfl, rfl, rfl, rfl⟩

end Sys2Proof.Machine

/-! SUPPORT. The encoding of requests: which CTRL byte selects which operation (R62, R64), and that F answers a request
by the instruction it decodes to and its length alone (R65, R66). -/

namespace Sys2Proof

/-! ### The decoder -/

/-- The CTRL value of each operation (R62). -/
def Opcode.ctrl : Opcode → Byte
  | .encode => 0x01#8
  | .decode => 0x02#8
  | .decodeMin => 0x06#8
  | .ackchk => 0x03#8

/-- A CTRL byte selects an operation exactly when it is that operation's value. -/
theorem decodeCtrl_eq_ok_iff (c : Byte) (op : Opcode) : decodeCtrl c = .ok op ↔ c = op.ctrl := by
  revert c
  cases op <;> decide

theorem decodeRequest_of_ctrl {q : Request} (op : Opcode) (h : q.ctrl = op.ctrl) :
    decodeRequest q = .ok (op.withOperands q) := by
  rw [decodeRequest, (decodeCtrl_eq_ok_iff q.ctrl op).mpr h]

/-- Everything a request can decode to. -/
theorem decodeRequest_eq_ok_iff {q : Request} {i : Instr} :
    decodeRequest q = .ok i ↔ ∃ op : Opcode, q.ctrl = op.ctrl ∧ op.withOperands q = i := by
  constructor
  · intro h
    unfold decodeRequest at h
    cases hop : decodeCtrl q.ctrl with
    | error r => rw [hop] at h; cases h
    | ok op => rw [hop] at h; cases h; exact ⟨op, (decodeCtrl_eq_ok_iff _ _).mp hop, rfl⟩
  · rintro ⟨op, hc, rfl⟩
    exact decodeRequest_of_ctrl op hc

/-- A CTRL byte outside R62's map is rejected. -/
theorem decodeRequest_of_not_mem {q : Request} (h : q.ctrl ∉ Machine.ctrlMap) :
    ∃ r, decodeRequest q = .error r := by
  rw [← Machine.decodeCtrl_isOk_iff] at h
  unfold decodeRequest
  cases hop : decodeCtrl q.ctrl with
  | error r => exact ⟨r, rfl⟩
  | ok op => exact absurd (by rw [hop]; rfl) h

/-! ### The encoder -/

/-- The encoder keeps the bytes of an instruction, and so whether the port can carry them. -/
theorem encodeRequest_wf (i : Instr) : (encodeRequest i).wf = i.wf := by cases i <;> rfl

theorem decodeRequest_encodeRequest (i : Instr) : decodeRequest (encodeRequest i) = .ok i := by
  cases i with
  | encode cc params => exact decodeRequest_of_ctrl .encode rfl
  | decode exp raw => exact decodeRequest_of_ctrl .decode rfl
  | decodeMin exp raw => exact decodeRequest_of_ctrl .decodeMin rfl
  | ackchk read => exact decodeRequest_of_ctrl .ackchk rfl

/-- What encoding a decoded instruction keeps of the request. -/
theorem encodeRequest_withOperands (op : Opcode) (q : Request) :
    (encodeRequest (op.withOperands q)).ctrl = op.ctrl ∧ (encodeRequest (op.withOperands q)).data = q.data := by
  cases op <;> exact ⟨rfl, rfl⟩

namespace Machine

theorem checkRequest_congr {q q' : Request} (b : Config.Build) (hdata : q'.data = q.data)
    (h : decodeRequest q' = decodeRequest q) : checkRequest b q' = checkRequest b q := by
  unfold checkRequest acceptsLength Request.dlen
  rw [hdata, h]

/-- F looks at a request's length and at what it decodes to, and at nothing else. -/
theorem blockFunction_congr {q q' : Request} (b : Config.Build) (hdata : q'.data = q.data)
    (h : decodeRequest q' = decodeRequest q) : blockFunction b q' = blockFunction b q := by
  rw [← answered_eq_blockFunction, ← answered_eq_blockFunction, answered, answered, checkRequest_congr b hdata h]

/-- Two requests with the same CTRL and the same operands for it are answered alike. -/
theorem blockFunction_congr_of_operands {q q' : Request} (b : Config.Build) (op : Opcode) (h : q.ctrl = op.ctrl)
    (h' : q'.ctrl = q.ctrl) (hdata : q'.data = q.data) (hops : op.withOperands q' = op.withOperands q) :
    blockFunction b q' = blockFunction b q :=
  blockFunction_congr b hdata (by rw [decodeRequest_of_ctrl op h, decodeRequest_of_ctrl op (h'.trans h), hops])

/-- R64's three classes are all the CTRL bytes outside R62's map. -/
theorem reservedCtrl_iff (c : Byte) : reservedCtrl c ↔ c ∉ ctrlMap := by
  revert c
  unfold reservedCtrl
  decide

/-! ### The statements about requests -/

/-- Settles O24: the decoder undoes the encoder, and F sees of a request only its length and what it decodes to. -/
theorem decodingAndEncodingAgree : Obligations.DecodingAndEncodingAgree := by
  refine ⟨fun i hi => ⟨(encodeRequest_wf i).trans hi, decodeRequest_encodeRequest i⟩, fun q i hq h => ?_⟩
  obtain ⟨op, hop, rfl⟩ := decodeRequest_eq_ok_iff.mp h
  obtain ⟨hctrl, hdata⟩ := encodeRequest_withOperands op q
  have hwf : (op.withOperands q).wf = true := by
    rw [← encodeRequest_wf, Request.wf, hdata]
    exact hq
  exact ⟨hwf, hctrl.trans hop.symm, hdata,
    fun b => blockFunction_congr b hdata ((decodeRequest_encodeRequest _).trans h.symm)⟩

/-- Settles O25: both refusals come before any operation. -/
theorem reservedOrOversizeIsBadRequest : Obligations.ReservedOrOversizeIsBadRequest := by
  refine ⟨reservedCtrl_iff, fun s q hp hq h => ?_⟩
  rw [compute_of_busy hp hq, answered_of_refused (h.imp_right (reservedCtrl_iff q.ctrl).mp)]
  rfl

/-- Settles O26: the instruction a request decodes to does not hold the fields its operation ignores. -/
theorem ignoredFieldsNeverChangeTheResponse : Obligations.IgnoredFieldsNeverChangeTheResponse := by
  intro b q cc exp
  refine ⟨fun h => ?_, fun h => ?_, fun h => ?_⟩
  · exact blockFunction_congr_of_operands b .ackchk h rfl rfl rfl
  · rcases h with h | h
    · exact blockFunction_congr_of_operands b .decode h rfl rfl rfl
    · exact blockFunction_congr_of_operands b .decodeMin h rfl rfl rfl
  · exact blockFunction_congr_of_operands b .encode h rfl rfl rfl

/-- Settles O22: each operation's value of R62 decodes with that operation's operands, and no other value decodes. -/
theorem controlByteSelectsTheInstruction : Obligations.ControlByteSelectsTheInstruction := fun _ =>
  ⟨decodeRequest_of_ctrl .encode, decodeRequest_of_ctrl .decode, decodeRequest_of_ctrl .decodeMin,
    decodeRequest_of_ctrl .ackchk, decodeRequest_of_not_mem⟩

/-- Settles O23: six table words, each decoded. -/
theorem tableWordsDecodeToTheirRows : Obligations.TableWordsDecodeToTheirRows := by
  unfold Obligations.TableWordsDecodeToTheirRows
  decide

end Machine
end Sys2Proof

/-! SUPPORT. Frames on the wire (R70): the bytes that DECODE reads as the parts of a frame. It accepts them by those
parts (R110 to R114), and what ENCODE emits is read off them index by index (R71). -/

namespace Sys2Proof.Machine

/-! ### Checksum identities -/

theorem add_eq_zero_iff_eq_neg8 {v w : Byte} : v + w = 0#8 ↔ w = neg8 v := by
  rw [neg8_eq_neg]
  exact add_eq_zero_iff_eq_neg'

/-- The DCS identity holds of exactly one DCS (R102, R103). -/
theorem sum8_append_eq_zero_iff {s : List Byte} {d : Byte} : sum8 (s ++ [d]) = 0#8 ↔ d = neg8 (sum8 s) := by
  rw [sum8_append, sum8_cons, sum8_nil, BitVec.add_zero, add_eq_zero_iff_eq_neg8]

theorem sum8_eq_zero_iff {s : List Byte} : sum8 s = 0#8 ↔ byteSum s % 256 = 0 := by
  rw [← BitVec.toNat_inj]
  rfl

/-! ### The parts of a frame -/

/-- The bytes that DECODE reads as a frame, named as in R70, whatever they are: only LEN fits the parameters. -/
structure WireParts where
  pre : Byte
  start1 : Byte
  start2 : Byte
  len : Byte
  lcs : Byte
  tfi : Byte
  code : Byte
  params : List Byte
  dcs : Byte
  post : Byte
  tail : List Byte
  /-- LEN counts TFI, the code and the parameters (R71). -/
  len_eq : len.toNat = params.length + 2

namespace WireParts
variable (w : WireParts)

/-- The bytes before the parameters. -/
def header : List Byte := [w.pre, w.start1, w.start2, w.len, w.lcs, w.tfi, w.code]

/-- The parts in their order on the wire. -/
def bytes : List Byte := w.header ++ (w.params ++ (w.dcs :: w.post :: w.tail))

theorem length_bytes : w.bytes.length = w.len.toNat + 7 + w.tail.length := by
  simp only [bytes, header, w.len_eq, List.length_append, List.length_cons, List.length_nil]
  omega

theorem getElem?_params {j : Nat} (h : j < w.params.length) : w.bytes[7 + j]? = w.params[j]? := by
  have hj : 7 + j - w.header.length = j := Nat.add_sub_cancel_left ..
  rw [bytes, List.getElem?_append_right (Nat.le_add_right 7 j), hj, List.getElem?_append_left h]

/-- The bytes from the DCS on. -/
theorem getElem?_after_params (j : Nat) : w.bytes[5 + w.len.toNat + j]? = (w.dcs :: w.post :: w.tail)[j]? := by
  have hl : 5 + w.len.toNat = (w.header ++ w.params).length := by
    rw [w.len_eq, List.length_append, header, List.length_cons]
    simp only [List.length_cons, List.length_nil]
    omega
  rw [bytes, ← List.append_assoc, hl, List.getElem?_append_right (Nat.le_add_right _ j), Nat.add_sub_cancel_left]

theorem getElem?_dcs : w.bytes[5 + w.len.toNat]? = some w.dcs := w.getElem?_after_params 0

theorem getElem?_post : w.bytes[6 + w.len.toNat]? = some w.post := by
  rw [Nat.add_right_comm 5 1]
  exact w.getElem?_after_params 1

theorem byteAt_start1 : byteAt w.bytes 1 = w.start1 := rfl

theorem byteAt_start2 : byteAt w.bytes 2 = w.start2 := rfl

theorem byteAt_len : byteAt w.bytes 3 = w.len := rfl

theorem byteAt_lcs : byteAt w.bytes 4 = w.lcs := rfl

theorem byteAt_post : byteAt w.bytes (6 + w.len.toNat) = w.post := by
  rw [byteAt, List.getD_eq_getElem?_getD, w.getElem?_post, Option.getD_some]

/-- What the DCS identity sums (R103). -/
theorem slice_summed : slice w.bytes 5 (6 + w.len.toNat) = w.tfi :: w.code :: w.params ++ [w.dcs] := by
  have hb : w.bytes = [w.pre, w.start1, w.start2, w.len, w.lcs] ++
      ((w.tfi :: w.code :: w.params ++ [w.dcs]) ++ (w.post :: w.tail)) := by simp [bytes, header]
  rw [hb]
  exact slice_middle rfl (by simp [w.len_eq]; omega)

theorem slice_params : slice w.bytes 7 (7 + (w.len.toNat - 2)) = w.params :=
  slice_middle rfl (by rw [w.len_eq, Nat.add_sub_cancel])

/-- What an accepted frame answers: its TFI, code and parameters. -/
theorem decodedResponse_bytes : decodedResponse w.bytes w.len.toNat =
    { status := .ok, ack := false, tfi := w.tfi, code := w.code, odata := w.params } := by
  rw [decodedResponse, slice_params]
  rfl

end WireParts

/-- Bytes that are long enough for the LEN they hold fall into parts. -/
theorem exists_bytes_eq {raw : List Byte} (h2 : 2 ≤ (byteAt raw 3).toNat)
    (h7 : (byteAt raw 3).toNat + 7 ≤ raw.length) : ∃ w : WireParts, w.bytes = raw := by
  match raw, h7 with
  | pre :: s1 :: s2 :: len :: lcs :: tfi :: code :: rest, h7 =>
    change 2 ≤ len.toNat at h2
    replace h7 : len.toNat ≤ rest.length := Nat.le_of_add_le_add_right h7
    have hd : (rest.drop (len.toNat - 2)).length = rest.length - (len.toNat - 2) := List.length_drop
    match hrest : rest.drop (len.toNat - 2), hd with
    | dcs :: post :: tail, _ =>
      refine ⟨⟨pre, s1, s2, len, lcs, tfi, code, rest.take (len.toNat - 2), dcs, post, tail, ?_⟩, ?_⟩
      · rw [List.length_take]
        omega
      · rw [WireParts.bytes, ← hrest, List.take_append_drop]
        rfl
    | [], hd | [_], hd =>
      simp only [List.length_cons, List.length_nil] at hd
      omega
  | [], h7 | [_], h7 | [_, _], h7 | [_, _, _], h7 | [_, _, _, _], h7 | [_, _, _, _, _], h7 | [_, _, _, _, _, _], h7 =>
    simp at h7

/-! ### What DECODE accepts -/

/-- DECODE's checks, part by part (R110). -/
theorem decodeResult_bytes_eq_ok_iff {mode : ExpMode} {exp : Byte} {w : WireParts} {r : Response} :
    decodeResult mode exp w.bytes = .ok r ↔
      w.start1 = start1 ∧ w.start2 = start2 ∧ w.len + w.lcs = 0#8 ∧
        sum8 (w.tfi :: w.code :: w.params ++ [w.dcs]) = 0#8 ∧ w.post = postamble ∧
        mode.meets exp w.params.length = true ∧
        r = { status := .ok, ack := false, tfi := w.tfi, code := w.code, odata := w.params } := by
  have h7 : w.len.toNat + 7 ≤ w.bytes.length := by rw [w.length_bytes]; omega
  have h5 : 5 ≤ w.bytes.length := by omega
  have h2 : 2 ≤ w.len.toNat := by rw [w.len_eq]; omega
  have hk : w.len.toNat - 2 = w.params.length := by rw [w.len_eq, Nat.add_sub_cancel]
  rw [decodeResult_eq_ok_iff, w.byteAt_start1, w.byteAt_start2, w.byteAt_len, w.byteAt_lcs, decodeBody_eq_ok_iff,
    w.slice_summed, w.byteAt_post, w.decodedResponse_bytes, hk]
  simp only [h5, h2, h7, true_and]

theorem ExpMode.meets_iff (mode : ExpMode) (exp : Byte) (k : Nat) :
    mode.meets exp k = true ↔
      match mode with
      | .exact => k = exp.toNat
      | .atLeast => exp.toNat ≤ k := by
  cases mode <;> simp [ExpMode.meets]

/-- The parts of a wire frame with any PREAMBLE, TFI and tail (R70, R111, R112, R114). -/
def wireFrame (pre tfi code : Byte) (params tail : List Byte) (h : params.length ≤ 253) : WireParts where
  pre := pre
  start1 := start1
  start2 := start2
  len := BitVec.ofNat 8 (params.length + 2)
  lcs := neg8 (BitVec.ofNat 8 (params.length + 2))
  tfi := tfi
  code := code
  params := params
  dcs := neg8 (sum8 (tfi :: code :: params))
  post := postamble
  tail := tail
  len_eq := by rw [BitVec.toNat_ofNat]; omega

theorem WireParts.length_params_le (w : WireParts) : w.params.length ≤ 253 := by
  have hlt : w.params.length + 2 < 256 := w.len_eq ▸ w.len.isLt
  omega

/-- DECODE accepts parts exactly when they are those of a wire frame whose parameter count meets EXP. -/
theorem decodeResult_bytes_eq_ok_iff_wireFrame {mode : ExpMode} {exp : Byte} {w : WireParts} {r : Response} :
    decodeResult mode exp w.bytes = .ok r ↔
      w = wireFrame w.pre w.tfi w.code w.params w.tail w.length_params_le ∧
        mode.meets exp w.params.length = true ∧
        r = { status := .ok, ack := false, tfi := w.tfi, code := w.code, odata := w.params } := by
  have hlen : BitVec.ofNat 8 (w.params.length + 2) = w.len := by
    rw [← w.len_eq, BitVec.ofNat_toNat, BitVec.setWidth_eq]
  rw [decodeResult_bytes_eq_ok_iff, add_eq_zero_iff_eq_neg8, sum8_append_eq_zero_iff, WireParts.mk.injEq]
  simp only [wireFrame, hlen, true_and, and_assoc]

theorem bytes_wireFrame (pre tfi code : Byte) {params : List Byte} (tail : List Byte) (h : params.length ≤ 253) :
    (wireFrame pre tfi code params tail h).bytes =
      [pre, 0x00#8, 0xFF#8, BitVec.ofNat 8 (params.length + 2), neg8 (BitVec.ofNat 8 (params.length + 2)), tfi] ++
        (code :: params) ++ [neg8 (sum8 (tfi :: code :: params)), 0x00#8] ++ tail := by
  simp [wireFrame, WireParts.bytes, WireParts.header, start1, start2, postamble]

/-- Settles O34: an accepted input falls into parts, since LEN has been checked against its length; on parts DECODE's
checks say what the bytes of a wire frame are. -/
theorem decodeAcceptsExactlyTheWireFrames : Obligations.DecodeAcceptsExactlyTheWireFrames := by
  intro mode exp raw r
  constructor
  · intro h
    obtain ⟨-, -, -, -, hbody⟩ := decodeResult_eq_ok_iff.mp h
    obtain ⟨h2, h7, -⟩ := decodeBody_eq_ok_iff.mp hbody
    obtain ⟨w, rfl⟩ := exists_bytes_eq h2 h7
    obtain ⟨hw, hexp, hr⟩ := decodeResult_bytes_eq_ok_iff_wireFrame.mp h
    refine ⟨w.pre, w.tfi, w.code, w.params, w.tail, w.length_params_le, ?_, (mode.meets_iff _ _).mp hexp, hr⟩
    rw [← bytes_wireFrame _ _ _ _ w.length_params_le, ← hw]
  · rintro ⟨pre, tfi, code, params, tail, hmax, rfl, hexp, rfl⟩
    rw [← bytes_wireFrame _ _ _ _ hmax]
    exact decodeResult_bytes_eq_ok_iff_wireFrame.mpr ⟨rfl, (mode.meets_iff exp _).mpr hexp, rfl⟩

/-! ### What ENCODE emits -/

/-- A frame is a wire frame with PREAMBLE 0 and nothing after it (R70). -/
theorem frame_eq_bytes_wireFrame (tfi code : Byte) {params : List Byte} (h : params.length ≤ 253) :
    frame tfi (code :: params) = (wireFrame preamble tfi code params [] h).bytes := by
  have hlen : 1 + (params.length + 1) = params.length + 2 := by omega
  simp [frame, wireFrame, WireParts.bytes, WireParts.header, lenByte, lcs, dcs, hlen]

/-- ENCODE's answer within its capacity, which DATA_MAX leaves room for in every build in range (R9, R10, R104). -/
theorem odata_encodeRequestOf {b : Config.Build} (hb : b.wf = true) (cc : Byte) {params : List Byte}
    (h : params.length ≤ b.maxParams) :
    (blockFunction b (encodeRequestOf cc params)).odata = frame tfiOut (cc :: params) := by
  obtain ⟨hmax, hmin, -⟩ := b.wf_iff.mp hb
  have hd : (encodeRequestOf cc params).dlen ≤ b.dataMax := by
    change params.length ≤ b.dataMax
    omega
  rw [blockFunction_encode hd rfl]
  change (responseOf (encodeResult b cc params)).odata = _
  rw [encodeResult_eq_ok_iff.mpr ⟨h, rfl⟩]
  rfl

/-- Settles O32: the emitted frame is a wire frame, whose parts are the bytes asked for. -/
theorem emittedFrameHasTheWireLayout : Obligations.EmittedFrameHasTheWireLayout := by
  intro b cc params hb h
  obtain ⟨hmax, -, -⟩ := b.wf_iff.mp hb
  have hle : params.length ≤ 253 := h.trans hmax
  let w := wireFrame preamble tfiOut cc params [] hle
  refine ⟨w.bytes, (odata_encodeRequestOf hb cc h).trans (frame_eq_bytes_wireFrame tfiOut cc hle), ?_⟩
  intro len
  have hlen : len = w.len.toNat := w.len_eq.symm
  refine ⟨by omega, by omega, ?_, rfl, rfl, rfl, congrArg some w.len_eq, rfl, rfl, rfl, fun j => w.getElem?_params,
    ?_, ?_, ?_, ?_⟩
  · rw [hlen]
    exact w.length_bytes
  · rw [hlen]
    exact w.getElem?_dcs
  · rw [hlen]
    exact w.getElem?_post
  · exact sum8_eq_zero_iff.mp (add_neg8 w.len)
  · rw [hlen, w.slice_summed]
    exact sum8_eq_zero_iff.mp (sum8_append_eq_zero_iff.mpr rfl)

end Sys2Proof.Machine

/-! SUPPORT. The assembler: which request a line stands for, and that its text is read as that line (R75, R76). -/

namespace Sys2Proof.Machine

/-! ### Abstract lines -/

/-- The fields of a request the port can carry, as numbers, give the request back. -/
theorem requestOfNumbers_toNat {q : Request} (h : q.wf = true) :
    requestOfNumbers q.ctrl.toNat q.cc.toNat q.exp.toNat (q.data.map BitVec.toNat) = some q := by
  unfold requestOfNumbers
  rw [byteOfNumber_toNat, byteOfNumber_toNat, byteOfNumber_toNat, mapM_byteOfNumber_toNat]
  exact if_pos h

/-- The line of an instruction writes the numbers of its request. -/
theorem assemble_lineOf (i : Instr) : (lineOf i).assemble = requestOfNumbers (encodeRequest i).ctrl.toNat
    (encodeRequest i).cc.toNat (encodeRequest i).exp.toNat ((encodeRequest i).data.map BitVec.toNat) := by
  cases i <;> rfl

/-- A line is refused exactly when a number or its list does not fit. -/
theorem assemble_eq_none_iff (l : AsmLine) :
    l.assemble = none ↔ (∃ n ∈ l.numbers, 256 ≤ n) ∨ 511 < l.listed.length := by
  cases l <;>
    simp [AsmLine.assemble, AsmLine.numbers, AsmLine.listed, requestOfNumbers_eq_none_iff, or_assoc]

/-- Settles O27: each line hands its numbers to `requestOfNumbers`, whose results and refusals are known. -/
theorem assembledLinesAreTheirRequests : Obligations.AssembledLinesAreTheirRequests :=
  ⟨fun i hi => (assemble_lineOf i).trans (requestOfNumbers_toNat ((encodeRequest_wf i).trans hi)), fun _ => rfl,
    fun _ => requestOfNumbers_toNat, assemble_eq_none_iff⟩

/-! ### The text of a line -/

/-- A line's text, with nothing but a comment after it, is read as that line. -/
theorem readLine_text_append (hex : Nat → Bool) (l : AsmLine) {rest : List Char} (hr : tokens [] rest = []) :
    readLine (l.text hex ++ rest) = some l := by
  rw [readLine, tokens_text]
  cases l with
  | encode cc params => exact numberAndList_text .encode _ _ cc params hr
  | decode exp raw => exact numberAndList_text .decode _ _ exp raw hr
  | decodeMin exp raw => exact numberAndList_text .decodeMin _ _ exp raw hr
  | ackchk read => exact congrArg (Option.map AsmLine.ackchk) (listOf_tokens_listText hex read hr)
  | decodeAny raw => exact congrArg (Option.map AsmLine.decodeAny) (listOf_tokens_listText hex raw hr)
  | req ctrl cc exp data => exact reqOperands_text _ _ _ _ ctrl cc exp data hr

theorem readLine_text (hex : Nat → Bool) (l : AsmLine) : readLine (l.text hex) = some l := by
  rw [← List.append_nil (l.text hex)]
  exact readLine_text_append hex l rfl

theorem readLine_text_comment (hex : Nat → Bool) (l : AsmLine) (comment : List Char) :
    readLine (l.text hex ++ ';' :: comment) = some l :=
  readLine_text_append hex l (tokens_comment [] comment)

theorem assembleLine_of_readLine {text : List Char} {l : AsmLine} (h : readLine text = some l) :
    assembleLine text = l.assemble := by
  rw [assembleLine, h]

/-- A line's text holds at least its mnemonic. -/
theorem tokens_text_ne_nil (hex : Nat → Bool) (l : AsmLine) : tokens [] (l.text hex) ≠ [] := by
  rw [← List.append_nil (l.text hex), tokens_text]
  exact List.cons_ne_nil _ _

/-- The texts of several lines are assembled one request each, or refused together. -/
theorem assembleLines_texts (ls : List ((Nat → Bool) × AsmLine)) :
    assembleLines (ls.map fun x => x.2.text x.1) = ls.mapM fun x => x.2.assemble := by
  induction ls with
  | nil => rfl
  | cons x ls ih =>
    rw [List.map_cons, assembleLines, if_neg (tokens_text_ne_nil x.1 x.2), ih,
      assembleLine_of_readLine (readLine_text x.1 x.2), List.mapM_cons]
    cases x.2.assemble with
    | none => rfl
    | some q => cases ls.mapM fun x => x.2.assemble <;> rfl

theorem assembleLines_comment (comment : List Char) (ls : List (List Char)) :
    assembleLines ((';' :: comment) :: ls) = assembleLines ls := by
  rw [assembleLines, tokens_comment, pushWord, if_pos rfl]

theorem lineOfMnemonic_of_not_mem {m : List Char} (ops : List Token)
    (h : m ∉ ["ENCODE".toList, "DECODE".toList, "DECODE.MIN".toList, "ACKCHK".toList, "DECODE.ANY".toList,
      "REQ".toList]) : lineOfMnemonic m ops = none := by
  simp only [List.mem_cons, List.not_mem_nil, or_false, not_or] at h
  obtain ⟨h1, h2, h3, h4, h5, h6⟩ := h
  rw [lineOfMnemonic, if_neg h1, if_neg h2, if_neg h3, if_neg h4, if_neg h5, if_neg h6]

/-- Settles O49: each form's text falls into its mnemonic and operands, which are read as they are written; a comment
adds no piece. -/
theorem lineTextIsReadAsItsLine : Obligations.LineTextIsReadAsItsLine :=
  ⟨fun hex l comment => ⟨readLine_text hex l, readLine_text_comment hex l comment,
      assembleLine_of_readLine (readLine_text_comment hex l comment)⟩,
    assembleLines_texts, assembleLines_comment, fun _ ops => lineOfMnemonic_of_not_mem ops⟩

end Sys2Proof.Machine

/-! SUPPORT. The frame codec: DECODE's eight steps as the table of R110, at a bad header and behind a good one; which
bytes they do not read (R112, R114); and what they answer on frames, sound or with a byte changed (R113, R116, R117). -/

namespace Sys2Proof.Machine

/-! ### Checksum arithmetic -/

theorem neg8_toNat (v : Byte) : (neg8 v).toNat = (256 - v.toNat) % 256 := by
  rw [neg8_eq_neg, BitVec.toNat_neg]

/-- The LCS identity, over the numbers (R103). -/
theorem add_eq_zero_iff_toNat {v w : Byte} : v + w = 0#8 ↔ (v.toNat + w.toNat) % 256 = 0 := by
  rw [← BitVec.toNat_inj, BitVec.toNat_add]
  rfl

/-- Adding to one byte of a list adds as much to its sum. -/
theorem sum8_set_add {l : List Byte} {k : Nat} (d : Byte) (h : k < l.length) :
    sum8 (l.set k (l[k] + d)) = sum8 l + d := by
  have hs := sum8_set (l[k] + d) h
  rw [BitVec.add_comm l[k] d, ← BitVec.add_assoc] at hs
  rw [BitVec.add_comm l[k] d]
  exact (add_left_inj l[k]).mp hs

/-- Two changes d and -d of different bytes leave the sum as it is. -/
theorem sum8_set_set {l : List Byte} {i j : Nat} (d : Byte) (hij : i < j) (hj : j < l.length) :
    sum8 ((l.set i (l[i] + d)).set j (l[j] - d)) = sum8 l := by
  have hset : j < (l.set i (l[i] + d)).length := by rwa [List.length_set]
  have hat : (l.set i (l[i] + d))[j] = l[j] := List.getElem_set_ne hij.ne hset
  rw [← hat, BitVec.sub_eq_add_neg, sum8_set_add (-d) hset, sum8_set_add d (hij.trans hj), BitVec.add_assoc,
    BitVec.add_right_neg, BitVec.add_zero]

/-- One changed byte changes the sum. -/
theorem sum8_set_ne {l : List Byte} {k : Nat} {v : Byte} (h : k < l.length) (hv : v ≠ l[k]) :
    sum8 (l.set k v) ≠ sum8 l := by
  intro hs
  have hset := sum8_set v h
  rw [hs] at hset
  exact hv ((add_right_inj (sum8 l)).mp hset).symm

/-! ### The steps as a table -/

/-- The answer of a table of steps: the status of the first that fails, or else the given response (R110). -/
def answerOfSteps (steps : List (Bool × Status)) (good : Response) : Response :=
  match steps.find? (·.1) with
  | some (_, st) => Response.error st
  | none => good

/-- A step of the decoder is a row of the table: it fails when the row does, with the row's status. -/
theorem responseOf_step {p : Prop} [Decidable p] {fails : Bool} {st : Status} {later : Except Status Response}
    {steps : List (Bool × Status)} {good : Response} (hfails : fails = true ↔ p)
    (hlater : ¬p → answerOfSteps steps good = responseOf later) :
    answerOfSteps ((fails, st) :: steps) good = responseOf (if p then .error st else later) := by
  by_cases hp : p
  · rw [if_pos hp, hfails.mpr hp]
    rfl
  · rw [if_neg hp, ← hlater hp, Bool.eq_false_iff.mpr (mt hfails.mp hp)]
    rfl

/-- The table answers as the decoder does, one `responseOf_step` for each of the first seven steps; at step 8 LEN is at
least 2, by step 4. -/
theorem decodeBySteps_meets (mode : ExpMode) (exp : Byte) (raw : List Byte) :
    decodeBySteps (mode.meets exp) raw = responseOf (decodeResult mode exp raw) := by
  change answerOfSteps (decodeSteps (mode.meets exp) raw) _ = _
  refine responseOf_step decide_eq_true_iff fun _ => ?_
  refine responseOf_step decide_eq_true_iff fun _ => ?_
  refine responseOf_step (decide_eq_true_iff.trans (not_congr add_eq_zero_iff_toNat.symm)) fun _ => ?_
  refine responseOf_step decide_eq_true_iff fun hlen => ?_
  refine responseOf_step decide_eq_true_iff fun _ => ?_
  refine responseOf_step (decide_eq_true_iff.trans (not_congr sum8_eq_zero_iff.symm)) fun _ => ?_
  refine responseOf_step decide_eq_true_iff fun _ => ?_
  have hend : 5 + (byteAt raw 3).toNat = 7 + ((byteAt raw 3).toNat - 2) := by omega
  rw [hend]
  cases mode.meets exp ((byteAt raw 3).toNat - 2) <;> rfl

/-! ### DECODE at a bad header, and behind a good one -/

section
variable {mode : ExpMode} {exp : Byte} {raw : List Byte}

/-- Step 2 fails (R110). -/
theorem decodeResult_of_bad_start (h : 5 ≤ raw.length) (hs : byteAt raw 1 ≠ start1 ∨ byteAt raw 2 ≠ start2) :
    decodeResult mode exp raw = .error .badMarker := by
  rw [decodeResult, if_neg (Nat.not_lt.mpr h), if_pos hs]

/-- Step 3 fails (R110). -/
theorem decodeResult_of_bad_lcs (h : 5 ≤ raw.length) (h1 : byteAt raw 1 = start1) (h2 : byteAt raw 2 = start2)
    (h3 : byteAt raw 3 + byteAt raw 4 ≠ 0#8) : decodeResult mode exp raw = .error .badChecksum := by
  rw [decodeResult, if_neg (Nat.not_lt.mpr h), if_neg (by simp [h1, h2]), if_pos h3]

end

/-- A good header for LEN, before the bytes that the DCS identity sums and the byte where the POSTAMBLE is due (R70). -/
def withHeader (len : Byte) (summed : List Byte) (post : Byte) : List Byte :=
  [preamble, start1, start2, len, lcs len] ++ (summed ++ [post])

theorem frame_eq_withHeader (tfi : Byte) (pd : List Byte) :
    frame tfi pd = withHeader (lenByte pd) (tfi :: pd ++ [dcs tfi pd]) postamble := frame_eq_parts tfi pd

section
variable {len : Byte} {summed : List Byte} {post : Byte}

theorem getElem?_withHeader (k : Nat) : (withHeader len summed post)[5 + k]? = (summed ++ [post])[k]? := by
  rw [withHeader, List.getElem?_append_right (Nat.le_add_right 5 k)]
  exact congrArg _ (Nat.add_sub_cancel_left 5 k)

theorem withHeader_set (k : Nat) (v : Byte) :
    (withHeader len summed post).set (5 + k) v =
      [preamble, start1, start2, len, lcs len] ++ (summed ++ [post]).set k v := by
  have hk : [preamble, start1, start2, len, lcs len].length ≤ 5 + k := Nat.le_add_right 5 k
  rw [withHeader, List.set_append_right (5 + k) v hk]
  exact congrArg (_ ++ List.set _ · v) (Nat.add_sub_cancel_left 5 k)

theorem withHeader_set_summed {k : Nat} (v : Byte) (h : k < summed.length) :
    (withHeader len summed post).set (5 + k) v = withHeader len (summed.set k v) post := by
  rw [withHeader_set, List.set_append_left k v h]
  rfl

theorem withHeader_set_post (v : Byte) :
    (withHeader len summed post).set (5 + summed.length) v = withHeader len summed v := by
  rw [withHeader_set, List.set_append_right summed.length v le_rfl, Nat.sub_self]
  rfl

theorem byteAt_withHeader_summed {k : Nat} (h : k < summed.length) :
    byteAt (withHeader len summed post) (5 + k) = summed[k] := by
  rw [byteAt, List.getD_eq_getElem?_getD, getElem?_withHeader, List.getElem?_append_left h,
    List.getElem?_eq_getElem h, Option.getD_some]

theorem byteAt_withHeader_post : byteAt (withHeader len summed post) (5 + summed.length) = post := by
  rw [byteAt, List.getD_eq_getElem?_getD, getElem?_withHeader, List.getElem?_concat_length, Option.getD_some]

/-- Behind a good header only the last three steps can fail (R110). -/
theorem decodeResult_withHeader (mode : ExpMode) (exp : Byte) (h2 : 2 ≤ len.toNat)
    (hl : summed.length = len.toNat + 1) :
    decodeResult mode exp (withHeader len summed post) =
      if sum8 summed ≠ 0#8 then .error .badChecksum
      else if post ≠ postamble then .error .badMarker
      else if mode.meets exp (len.toNat - 2) then .ok (decodedResponse (withHeader len summed post) len.toNat)
      else .error .lengthMismatch := by
  have hlen : (withHeader len summed post).length = len.toNat + 7 := by simp [withHeader, hl]
  have hend : 6 + len.toNat = 5 + summed.length := by omega
  have hsum : slice (withHeader len summed post) 5 (6 + len.toNat) = summed := slice_middle rfl hend
  have hpost : byteAt (withHeader len summed post) (6 + len.toNat) = post := hend ▸ byteAt_withHeader_post
  rw [decodeResult_of_header (by omega) rfl rfl rfl]
  change decodeBody mode exp _ len.toNat = _
  rw [decodeBody, if_neg (by omega), if_neg (by omega), hsum, hpost]

/-- Where the sum and the POSTAMBLE are good too, only step 8 can fail (R113). -/
theorem decodeResult_withHeader_of_sum (mode : ExpMode) (exp : Byte) (h2 : 2 ≤ len.toNat)
    (hl : summed.length = len.toNat + 1) (hs : sum8 summed = 0#8) :
    decodeResult mode exp (withHeader len summed postamble) =
      if mode.meets exp (len.toNat - 2) then .ok (decodedResponse (withHeader len summed postamble) len.toNat)
      else .error .lengthMismatch := by
  rw [decodeResult_withHeader mode exp h2 hl, if_neg (not_not_intro hs), if_neg (not_not_intro rfl)]

end

/-- DECODE.ANY takes every parameter count (R76, R113). -/
theorem meets_atLeast_zero (k : Nat) : ExpMode.atLeast.meets 0x00#8 k = true :=
  (ExpMode.meets_iff .atLeast _ k).mpr (Nat.zero_le k)

/-! ### The bytes DECODE does not read -/

/-- DECODE reads nothing at index 0 (R112). -/
theorem decodeResult_cons_congr (mode : ExpMode) (exp p p' : Byte) (rest : List Byte) :
    decodeResult mode exp (p :: rest) = decodeResult mode exp (p' :: rest) := by
  have hat (q : Byte) (i : Nat) : byteAt (q :: rest) (6 + i) = byteAt rest (5 + i) := by
    rw [Nat.add_right_comm 5 1]
    rfl
  simp only [decodeResult, decodeBody, hat]
  rfl

section
variable {raw : List Byte}

theorem decodedResponse_append {len : Nat} (tail : List Byte) (h : len + 7 ≤ raw.length) :
    decodedResponse (raw ++ tail) len = decodedResponse raw len := by
  have h5 : byteAt (raw ++ tail) 5 = byteAt raw 5 := byteAt_append_left (by omega)
  have h6 : byteAt (raw ++ tail) 6 = byteAt raw 6 := byteAt_append_left (by omega)
  have hparams : slice (raw ++ tail) 7 (7 + (len - 2)) = slice raw 7 (7 + (len - 2)) := slice_append_left (by omega)
  rw [decodedResponse, decodedResponse, h5, h6, hparams]

/-- Once LEN is trusted, the bytes from LEN + 7 on are not read (R114). -/
theorem decodeBody_append (mode : ExpMode) (exp : Byte) {len : Nat} (tail : List Byte) (h : len + 7 ≤ raw.length) :
    decodeBody mode exp (raw ++ tail) len = decodeBody mode exp raw len := by
  have hlong : ¬(raw ++ tail).length < len + 7 := by rw [List.length_append]; omega
  have hsum : slice (raw ++ tail) 5 (6 + len) = slice raw 5 (6 + len) := slice_append_left (by omega)
  have hpost : byteAt (raw ++ tail) (6 + len) = byteAt raw (6 + len) := byteAt_append_left (by omega)
  rw [decodeBody, decodeBody, if_neg hlong, if_neg (Nat.not_lt.mpr h), hsum, hpost, decodedResponse_append tail h]

/-- Bytes after the POSTAMBLE are not read (R114). -/
theorem decodeResult_append (mode : ExpMode) (exp : Byte) (tail : List Byte)
    (h : (byteAt raw 3).toNat + 7 ≤ raw.length) :
    decodeResult mode exp (raw ++ tail) = decodeResult mode exp raw := by
  have hat {i : Nat} (hi : i < 5) : byteAt (raw ++ tail) i = byteAt raw i := byteAt_append_left (by omega)
  have hlong : ¬(raw ++ tail).length < 5 := by rw [List.length_append]; omega
  have hraw : ¬raw.length < 5 := by omega
  rw [decodeResult, decodeResult, if_neg hlong, if_neg hraw, hat (by decide), hat (by decide),
    hat (by decide), hat (by decide), decodeBody_append mode exp tail h]

end

/-! ### DECODE on a frame -/

section
variable {params : List Byte}

theorem lenByte_cons_toNat (code : Byte) (h : params.length ≤ 253) :
    (lenByte (code :: params)).toNat = params.length + 2 :=
  lenByte_toNat (Nat.succ_le_succ h)

/-- The DCS identity sums one byte more than LEN counts (R103). -/
theorem length_summed (tfi code : Byte) (h : params.length ≤ 253) :
    (tfi :: (code :: params) ++ [dcs tfi (code :: params)]).length = (lenByte (code :: params)).toNat + 1 := by
  rw [lenByte_cons_toNat code h]
  simp

/-- On a sound frame only step 8 can fail (R113). -/
theorem decodeResult_frame (mode : ExpMode) (exp tfi code : Byte) (h : params.length ≤ 253) :
    decodeResult mode exp (frame tfi (code :: params)) =
      if mode.meets exp params.length then
        .ok { status := .ok, ack := false, tfi := tfi, code := code, odata := params }
      else .error .lengthMismatch := by
  have hlen := lenByte_cons_toNat code h
  have hgood : decodedResponse (frame tfi (code :: params)) (params.length + 2) =
      { status := .ok, ack := false, tfi := tfi, code := code, odata := params } := by
    have hw := (wireFrame preamble tfi code params [] h).decodedResponse_bytes
    rwa [← frame_eq_bytes_wireFrame, WireParts.len_eq] at hw
  rw [frame_eq_withHeader] at hgood ⊢
  rw [decodeResult_withHeader_of_sum mode exp (by omega) (length_summed tfi code h) (sum8_with_dcs tfi _),
    hlen, hgood, Nat.add_sub_cancel]

/-- A frame's request is never refused for its length: DATA_MAX is at least 262 (R10). -/
theorem length_frame_le_dataMax {b : Config.Build} (hb : b.wf = true) (tfi code : Byte) (h : params.length ≤ 253) :
    (frame tfi (code :: params)).length ≤ b.dataMax := by
  obtain ⟨-, hmin, -⟩ := b.wf_iff.mp hb
  rw [length_frame, List.length_cons]
  omega

end

section
variable {b : Config.Build} {raw : List Byte}

theorem blockFunction_decodeRequestOf (exp : Byte) (h : raw.length ≤ b.dataMax) :
    blockFunction b (decodeRequestOf exp raw) = responseOf (decodeResult .exact exp raw) :=
  blockFunction_decode (q := decodeRequestOf exp raw) h rfl

theorem blockFunction_decodeMinRequestOf (exp : Byte) (h : raw.length ≤ b.dataMax) :
    blockFunction b (decodeMinRequestOf exp raw) = responseOf (decodeResult .atLeast exp raw) :=
  blockFunction_decodeMin (q := decodeMinRequestOf exp raw) h rfl

/-- An input that DECODE accepts meets both identities: steps 3 and 6 check them (R103). -/
theorem meetsIdentities_of_decodeResult {mode : ExpMode} {exp : Byte} {r : Response}
    (h : decodeResult mode exp raw = .ok r) : meetsIdentities raw := by
  obtain ⟨h5, -, -, hlcs, hbody⟩ := decodeResult_eq_ok_iff.mp h
  obtain ⟨-, -, hsum, -⟩ := decodeBody_eq_ok_iff.mp hbody
  refine ⟨?_, sum8_eq_zero_iff.mp hsum⟩
  match raw, h5 with
  | _ :: _ :: _ :: len :: lcs :: _, _ => exact add_eq_zero_iff_toNat.mp hlcs

end

/-! ### DECODE on a frame with bytes changed (R117) -/

theorem byteAt_ne_of_getElem?_ne {f : List Byte} {i : Nat} {v : Byte} (hi : i < f.length) (h : f[i]? ≠ some v) :
    v ≠ byteAt f i := by
  rintro rfl
  exact h (by rw [byteAt_of_lt hi, List.getElem?_eq_getElem hi])

section
variable {tfi v : Byte} {pd : List Byte} {mode : ExpMode} {exp : Byte}

theorem decodeResult_set_preamble (raw : List Byte) :
    decodeResult mode exp (raw.set 0 v) = decodeResult mode exp raw := by
  cases raw with
  | nil => rfl
  | cons p rest => exact decodeResult_cons_congr mode exp v p rest

theorem decodeResult_set_start {i : Nat} (hi : i = 1 ∨ i = 2) (hv : v ≠ byteAt (frame tfi pd) i) :
    decodeResult mode exp ((frame tfi pd).set i v) = .error .badMarker := by
  refine decodeResult_of_bad_start (by simp) ?_
  rcases hi with rfl | rfl
  · exact .inl hv
  · exact .inr hv

/-- LEN and LCS sum to 0, so neither can change alone. -/
theorem decodeResult_set_len {i : Nat} (hi : i = 3 ∨ i = 4) (hv : v ≠ byteAt (frame tfi pd) i) :
    decodeResult mode exp ((frame tfi pd).set i v) = .error .badChecksum := by
  have hsum : lenByte pd + lcs (lenByte pd) = 0#8 := add_neg8 (lenByte pd)
  rcases hi with rfl | rfl
  · refine decodeResult_of_bad_lcs (by simp) rfl rfl fun h => hv ?_
    exact (add_left_inj (lcs (lenByte pd))).mp (h.trans hsum.symm)
  · refine decodeResult_of_bad_lcs (by simp) rfl rfl fun h => hv ?_
    exact (add_right_inj (lenByte pd)).mp (h.trans hsum.symm)

end

section
variable {tfi code v : Byte} {params : List Byte} {mode : ExpMode} {exp : Byte} (h : params.length ≤ 253)
include h

/-- A change to TFI, PD or the DCS breaks the DCS identity. -/
theorem decodeResult_set_summed {k : Nat} (hk : k < params.length + 3)
    (hv : v ≠ byteAt (frame tfi (code :: params)) (5 + k)) :
    decodeResult mode exp ((frame tfi (code :: params)).set (5 + k) v) = .error .badChecksum := by
  have hlen := lenByte_cons_toNat code h
  have hk' : k < (tfi :: (code :: params) ++ [dcs tfi (code :: params)]).length := by
    rw [length_summed tfi code h]
    omega
  rw [frame_eq_withHeader] at hv ⊢
  rw [byteAt_withHeader_summed hk'] at hv
  have hne := sum8_set_ne hk' hv
  rw [sum8_with_dcs] at hne
  rw [withHeader_set_summed v hk',
    decodeResult_withHeader mode exp (by omega) (List.length_set.trans (length_summed tfi code h)), if_pos hne]

theorem decodeResult_set_post (hv : v ≠ byteAt (frame tfi (code :: params)) (6 + (params.length + 2))) :
    decodeResult mode exp ((frame tfi (code :: params)).set (6 + (params.length + 2)) v) = .error .badMarker := by
  have hlen := lenByte_cons_toNat code h
  have hend : 6 + (params.length + 2) = 5 + (tfi :: (code :: params) ++ [dcs tfi (code :: params)]).length := by
    rw [length_summed tfi code h]
    omega
  rw [frame_eq_withHeader, hend] at hv ⊢
  rw [byteAt_withHeader_post] at hv
  rw [withHeader_set_post, decodeResult_withHeader mode exp (by omega) (length_summed tfi code h),
    sum8_with_dcs, if_neg (not_not_intro rfl), if_pos hv]

/-- Two changes that cancel in the sum are not seen. -/
theorem decodeResult_set_compensating {i j : Nat} (d : Byte) (hij : i < j) (hj : j < params.length + 3) :
    (responseOf (decodeResult .atLeast 0x00#8
      (((frame tfi (code :: params)).set (5 + i) (byteAt (frame tfi (code :: params)) (5 + i) + d)).set (5 + j)
        (byteAt (frame tfi (code :: params)) (5 + j) - d)))).status = .ok := by
  have hlen := lenByte_cons_toNat code h
  have hsum := sum8_with_dcs tfi (code :: params)
  have hl := length_summed tfi code h
  rw [frame_eq_withHeader]
  generalize tfi :: (code :: params) ++ [dcs tfi (code :: params)] = summed at hsum hl
  have hi' : i < summed.length := by omega
  have hj' : j < summed.length := by omega
  rw [byteAt_withHeader_summed hi', byteAt_withHeader_summed hj', withHeader_set_summed _ hi',
    withHeader_set_summed _ (by rwa [List.length_set]),
    decodeResult_withHeader_of_sum _ _ (by omega) (by rw [List.length_set, List.length_set, hl])
      (by rw [sum8_set_set d hij hj', hsum]),
    if_pos (meets_atLeast_zero _)]
  rfl

end

/-! ### The statements about the codec -/

/-- Settles O38: ENCODE emits a frame whose parameter count is the EXP asked for, and on a frame EXP alone decides. -/
theorem decodeUndoesEncode : Obligations.DecodeUndoesEncode := by
  intro b cc params hb h
  obtain ⟨hmax, -, -⟩ := b.wf_iff.mp hb
  have hle : params.length ≤ 253 := h.trans hmax
  have hlen : (frame tfiOut (cc :: params)).length = params.length + 9 := length_frame tfiOut (cc :: params)
  have hmeets : ExpMode.exact.meets (BitVec.ofNat 8 params.length) params.length = true := by
    rw [ExpMode.meets_iff, BitVec.toNat_ofNat]
    omega
  have hdata := length_frame_le_dataMax hb tfiOut cc hle
  refine ⟨_, odata_encodeRequestOf hb cc h, hlen, by omega, hdata, ?_⟩
  rw [blockFunction_decodeRequestOf _ hdata, decodeResult_frame _ _ _ _ hle, if_pos hmeets]
  rfl

/-- Settles O29: the DCS is what makes the sum 0; DECODE checks both identities, and it accepts what ENCODE emits. -/
theorem checksumIdentitiesHold : Obligations.ChecksumIdentitiesHold := by
  refine ⟨fun len => add_eq_zero_iff_toNat.mp (add_neg8 len), fun tfi pd => ?_, fun b cc params r hb h => ?_,
    fun mode exp raw r => meetsIdentities_of_decodeResult⟩
  · have h := sum8_eq_zero_iff.mp (sum8_with_dcs tfi pd)
    simpa [Nat.add_assoc] using h
  · obtain ⟨hcap, rfl⟩ := encodeResult_eq_ok_iff.mp h
    obtain ⟨hmax, -, -⟩ := b.wf_iff.mp hb
    have haccepts := decodeResult_frame .atLeast 0x00#8 tfiOut cc (hcap.trans hmax)
    rw [if_pos (meets_atLeast_zero _)] at haccepts
    exact meetsIdentities_of_decodeResult haccepts

/-- Settles O33: both instructions complete with what their eight steps answer, and the steps are the table's. -/
theorem decodeAnswersByTheFirstFailingStep : Obligations.DecodeAnswersByTheFirstFailingStep := by
  intro s exp raw
  constructor
  · rw [exec_eq_complete, answer, ← decodeBySteps_meets]
    rfl
  · rw [exec_eq_complete, answer, ← decodeBySteps_meets]
    rfl

/-- Settles O35: a frame fits DATA_MAX and passes the first seven steps. -/
theorem expectedLengthDecidesOnAGoodFrame : Obligations.ExpectedLengthDecidesOnAGoodFrame := by
  intro b exp tfi code params hb h good bad
  have hdata := length_frame_le_dataMax hb tfi code h
  constructor
  · rw [blockFunction_decodeRequestOf exp hdata, decodeResult_frame _ _ _ _ h, apply_ite responseOf]
    exact if_congr (ExpMode.meets_iff .exact exp _) rfl rfl
  · rw [blockFunction_decodeMinRequestOf exp hdata, decodeResult_frame _ _ _ _ h, apply_ite responseOf]
    exact if_congr (ExpMode.meets_iff .atLeast exp _) rfl rfl

/-- Settles O36: index 0 is not read; behind one byte, the frame's START1 stands where START2 is due. -/
theorem decodeInputStartsAtThePreamble : Obligations.DecodeInputStartsAtThePreamble := fun mode exp p p' rest =>
  ⟨decodeResult_cons_congr mode exp p p' rest, fun tfi pd tail => by
    have hlen : 5 ≤ (p :: (frame tfi pd ++ tail)).length := by
      rw [List.length_cons, List.length_append, length_frame]
      omega
    exact decodeResult_of_bad_start hlen (.inr (by decide : start1 ≠ start2))⟩

/-- Settles O37: either tail may as well be absent. -/
theorem bytesAfterThePostambleAreIgnored : Obligations.BytesAfterThePostambleAreIgnored :=
  fun mode exp _ tail tail' h => (decodeResult_append mode exp tail h).trans (decodeResult_append mode exp tail' h).symm

/-- Settles O39: each index is one of the frame's parts, and each part is held by the step that checks it. -/
theorem tamperedFrameIsDetected : Obligations.TamperedFrameIsDetected := by
  intro b tfi code params hb h f len
  have hanswer {raw : List Byte} (hl : raw.length = f.length) :
      blockFunction b (decodeAnyRequestOf raw) = responseOf (decodeResult .atLeast 0x00#8 raw) :=
    blockFunction_decodeMinRequestOf _ (hl.trans_le (length_frame_le_dataMax hb tfi code h))
  refine ⟨?_, fun i j d hi hij hj => ?_⟩
  · intro i v hi hne r
    have hv := byteAt_ne_of_getElem?_ne hi hne
    have hr : r = responseOf (decodeResult .atLeast 0x00#8 (f.set i v)) := hanswer List.length_set
    rw [hr]
    refine ⟨?_, fun h12 => ?_, fun h34 => ?_, fun h5 hle => ?_, ?_⟩
    · rintro rfl
      rw [hanswer rfl, decodeResult_set_preamble]
    · rw [decodeResult_set_start h12 hv, responseOf_error]
    · rw [decodeResult_set_len h34 hv, responseOf_error]
    · obtain ⟨k, rfl⟩ := Nat.exists_eq_add_of_le h5
      rw [decodeResult_set_summed h (by omega) hv, responseOf_error]
    · rintro rfl
      rw [decodeResult_set_post h hv, responseOf_error]
  · obtain ⟨i, rfl⟩ := Nat.exists_eq_add_of_le hi
    obtain ⟨j, rfl⟩ := Nat.exists_eq_add_of_le (hi.trans hij.le)
    rw [hanswer (by rw [List.length_set, List.length_set])]
    exact decodeResult_set_compensating h d (by omega) (by omega)

/-- Settles O28: neg8 is negation and sum8 addition of bytes; at L of 1 or more the remainder is 256 - L itself. -/
theorem checksumArithmeticIsModulo256 : Obligations.ChecksumArithmeticIsModulo256 := by
  refine ⟨neg8_toNat, sum8_nil, fun v s => ?_, fun len => ⟨rfl, add_eq_zero_iff_toNat.mp (add_neg8 len)⟩,
    fun len h => ?_⟩
  · rw [sum8, BitVec.toNat_ofNat, byteSum_cons]
  · rw [lcs, neg8_toNat]
    omega

/-- Settles O30: ENCODE completes, by its capacity alone. -/
theorem encodeAnswersTheFrameOrViolation : Obligations.EncodeAnswersTheFrameOrViolation := by
  intro s cc params
  rw [exec_eq_complete, answer]
  refine ⟨fun h => ?_, fun h => ?_⟩
  · have hlen : 1 + (params.length + 1) = params.length + 2 := by omega
    rw [encodeResult_eq_ok_iff.mpr ⟨h, rfl⟩, responseOf_ok, frame, lenByte, List.length_cons, hlen]
    rfl
  · have hcap : withinCapacity s.build params = false := decide_eq_false (Nat.not_le.mpr h)
    rw [encodeResult, hcap]
    rfl

/-- Settles O31: CC and DATA are all that ENCODE takes of its request. -/
theorem equalEncodeRequestsGiveIdenticalFrames : Obligations.EqualEncodeRequestsGiveIdenticalFrames := by
  intro b q q' hq hq' hcc hdata
  have hops : Opcode.encode.withOperands q = Opcode.encode.withOperands q' := by
    rw [Opcode.withOperands, Opcode.withOperands, hcc, hdata]
  rw [blockFunction_congr_of_operands b .encode hq' (hq.trans hq'.symm) hdata hops]

/-- Settles O40: the bytes where LEN and LCS are due sum to 0xFF. -/
theorem acknowledgePatternIsNoFrame : Obligations.AcknowledgePatternIsNoFrame := by
  intro b exp hb raw hraw
  obtain ⟨-, hmin, -⟩ := b.wf_iff.mp hb
  obtain ⟨hlen, h1, h2, h3⟩ : raw.length = 6 ∧ byteAt raw 1 = start1 ∧ byteAt raw 2 = start2 ∧
      byteAt raw 3 + byteAt raw 4 ≠ 0#8 := by
    revert raw
    decide
  have hbad (mode : ExpMode) : decodeResult mode exp raw = .error .badChecksum :=
    decodeResult_of_bad_lcs (by omega) h1 h2 h3
  rw [blockFunction_decodeRequestOf exp (by omega), blockFunction_decodeMinRequestOf exp (by omega), hbad, hbad]
  exact ⟨rfl, rfl⟩

end Sys2Proof.Machine

/-! SUPPORT. The acknowledge detector: its verdict is a prefix test behind the status byte (R140 to R143), and what
DECODE accepts or ENCODE emits has a LEN other than 0 where the pattern has 0 (R144). -/

namespace Sys2Proof.Machine

/-! ### The verdict -/

theorem ackVerdict_nil : ackVerdict [] = false := rfl

/-- Behind the status byte the pattern is due at once, and it is as long as what is compared (R140 to R143). -/
theorem ackVerdict_cons (status : Byte) (rest : List Byte) :
    ackVerdict (status :: rest) = true ↔ ackPattern <+: rest := by
  have hslice : slice (status :: rest) ackOffset ackReadLen = rest.take ackPattern.length := rfl
  rw [ackVerdict, Bool.and_eq_true, decide_eq_true_iff, decide_eq_true_iff, hslice, eq_comm,
    ← List.prefix_iff_eq_take]
  exact and_iff_right_of_imp fun h => Nat.succ_le_succ h.length_le

theorem ackVerdict_eq_true_iff (read : List Byte) :
    ackVerdict read = true ↔ ∃ (status : Byte) (tail : List Byte), read = status :: (ackPattern ++ tail) := by
  cases read with
  | nil => simp [ackVerdict_nil]
  | cons status rest =>
    rw [ackVerdict_cons]
    constructor
    · rintro ⟨tail, rfl⟩
      exact ⟨status, tail, rfl⟩
    · rintro ⟨_, tail, h⟩
      obtain ⟨-, rfl⟩ := List.cons.inj h
      exact List.prefix_append ackPattern tail

/-- The byte of the pattern that stands where a frame has its LEN is 0 (R144). -/
theorem ackVerdict_cons_of_len_ne_zero (status : Byte) {raw : List Byte} (h : byteAt raw 3 ≠ 0#8) :
    ackVerdict (status :: raw) = false := by
  rw [Bool.eq_false_iff, ne_eq, ackVerdict_cons]
  rintro ⟨tail, rfl⟩
  exact h rfl

/-- F gives the verdict on what it was asked, or refuses a read past DATA_MAX with ACK = 0 (R65, R140). -/
theorem blockFunction_ackchkRequestOf_ack (b : Config.Build) {read : List Byte} (h : ackVerdict read = false) :
    (blockFunction b (ackchkRequestOf read)).ack = false := by
  by_cases hd : (ackchkRequestOf read).dlen ≤ b.dataMax
  · rw [blockFunction_ackchk hd rfl]
    exact h
  · rw [blockFunction_of_oversize (Nat.lt_of_not_le hd), Response.error_ack]

/-! ### LEN of an emitted and of an accepted frame -/

/-- ENCODE's LEN does not wrap to 0, as it counts 255 bytes at most (R9, R71). -/
theorem byteAt_frame_len_ne_zero (tfi code : Byte) {params : List Byte} (h : params.length ≤ 253) :
    byteAt (frame tfi (code :: params)) 3 ≠ 0#8 := by
  have hlen : (byteAt (frame tfi (code :: params)) 3).toNat = params.length + 2 := lenByte_cons_toNat code h
  intro h0
  rw [h0] at hlen
  exact absurd hlen (Nat.succ_ne_zero _).symm

theorem decodeBody_ne_error_ok (mode : ExpMode) (exp : Byte) (raw : List Byte) (len : Nat) :
    decodeBody mode exp raw len ≠ .error .ok := by
  unfold decodeBody
  split_ifs <;> simp

/-- OK is no status that DECODE raises: it answers OK only of a frame it accepts (R110). -/
theorem decodeResult_ne_error_ok (mode : ExpMode) (exp : Byte) (raw : List Byte) :
    decodeResult mode exp raw ≠ .error .ok := by
  unfold decodeResult
  split_ifs
  · simp
  · simp
  · simp
  · exact decodeBody_ne_error_ok mode exp raw _

/-- DECODE accepts no LEN below 2: step 4 (R110). -/
theorem byteAt_len_ne_zero_of_status_ok {mode : ExpMode} {exp : Byte} {raw : List Byte}
    (h : (responseOf (decodeResult mode exp raw)).status = .ok) : byteAt raw 3 ≠ 0#8 := by
  cases hdec : decodeResult mode exp raw with
  | ok r =>
    obtain ⟨-, -, -, -, hbody⟩ := decodeResult_eq_ok_iff.mp hdec
    obtain ⟨hlen, -⟩ := decodeBody_eq_ok_iff.mp hbody
    intro h0
    rw [h0] at hlen
    exact absurd hlen (by decide)
  | error st =>
    rw [hdec, responseOf_error, Response.error_status] at h
    exact absurd (h ▸ hdec) (decodeResult_ne_error_ok mode exp raw)

/-- A request answered OK is not refused for its length (R65). -/
theorem dlen_le_dataMax_of_status_ok {b : Config.Build} {q : Request} (h : (blockFunction b q).status = .ok) :
    q.dlen ≤ b.dataMax := by
  by_contra hd
  rw [blockFunction_of_oversize (Nat.lt_of_not_le hd), Response.error_status] at h
  exact absurd h (by decide)

/-! ### The statements about the acknowledge detector -/

/-- Settles O41: ACKCHK completes with its result, whose ACK is the verdict. -/
theorem ackVerdictIsThePatternAtOffsetOne : Obligations.AckVerdictIsThePatternAtOffsetOne :=
  fun s read => ⟨ackVerdict read, exec_eq_complete (.ackchk read) s, ackVerdict_eq_true_iff read⟩

/-- Settles O42: the LEN of both is not 0, by ENCODE's capacity and by step 4 of DECODE. -/
theorem noFrameIsTakenForAnAcknowledge : Obligations.NoFrameIsTakenForAnAcknowledge := by
  intro b status hb
  have hack {raw : List Byte} (hlen : byteAt raw 3 ≠ 0#8) :
      (blockFunction b (ackchkRequestOf (status :: raw))).ack = false :=
    blockFunction_ackchkRequestOf_ack b (ackVerdict_cons_of_len_ne_zero status hlen)
  refine ⟨fun cc params h => ?_, fun exp raw h => hack ?_⟩
  · obtain ⟨hmax, -, -⟩ := b.wf_iff.mp hb
    rw [odata_encodeRequestOf hb cc h]
    exact hack (byteAt_frame_len_ne_zero tfiOut cc (h.trans hmax))
  · rcases h with h | h
    · rw [blockFunction_decode (dlen_le_dataMax_of_status_ok h) rfl] at h
      exact byteAt_len_ne_zero_of_status_ok h
    · rw [blockFunction_decodeMin (dlen_le_dataMax_of_status_ok h) rfl] at h
      exact byteAt_len_ne_zero_of_status_ok h

end Sys2Proof.Machine

/-! SUPPORT. Exceptions: no step stops and no run does (R161, R164), a response is an OK one or the bare error of its
status (R163), and which operation answers which status (R160). -/

namespace Sys2Proof.Machine

/-! ### Steps and runs never stop -/

theorem exists_step (s : State) : ∃ t, step s = .next t :=
  have ⟨t, ht, _⟩ := step_cases s
  ⟨t, ht⟩

theorem exists_run (k : Nat) (s : State) : ∃ t, run k s = .next t := by
  induction k generalizing s with
  | zero => exact ⟨s, rfl⟩
  | succ k ih =>
    obtain ⟨u, hu⟩ := exists_step s
    rw [run_succ_of_step k hu]
    exact ih u

/-! ### An error response holds nothing of the operation -/

/-- A response that says OK, or holds nothing but its status (R163). -/
def Response.okOrBare (r : Response) : Prop := r.status = .ok ∨ r = Response.error r.status

theorem Response.okOrBare_error (st : Status) : (Response.error st).okOrBare := .inr rfl

theorem encodeResult_okOrBare (b : Config.Build) (cc : Byte) (params : List Byte) :
    (responseOf (encodeResult b cc params)).okOrBare := by
  refine responseOf_cases (P := Response.okOrBare) (fun r hr => .inl ?_) Response.okOrBare_error
  obtain ⟨-, rfl⟩ := encodeResult_eq_ok_iff.mp hr
  rfl

theorem decodeResult_okOrBare (mode : ExpMode) (exp : Byte) (raw : List Byte) :
    (responseOf (decodeResult mode exp raw)).okOrBare := by
  refine responseOf_cases (P := Response.okOrBare) (fun r hr => .inl ?_) Response.okOrBare_error
  rw [eq_decodedResponse_of_decodeResult hr, decodedResponse_status]

/-- In every build, also one out of range: `blockFunction_wf` says it of builds in range. -/
theorem blockFunction_okOrBare (b : Config.Build) (q : Request) : (blockFunction b q).okOrBare :=
  blockFunction_cases (P := Response.okOrBare) (fun _ => Response.okOrBare_error _)
    (fun _ _ => encodeResult_okOrBare b q.cc q.data) (fun _ _ => decodeResult_okOrBare .exact q.exp q.data)
    (fun _ _ => decodeResult_okOrBare .atLeast q.exp q.data) (fun _ _ => .inl (ackResult_status q.data))

/-! ### The operation behind each status -/

theorem encodeResult_status_eq_contractViolation_iff (b : Config.Build) (cc : Byte) (params : List Byte) :
    (responseOf (encodeResult b cc params)).status = .contractViolation ↔ b.maxParams < params.length := by
  simp [encodeResult_status]

theorem decodeResult_status_ne_contractViolation (mode : ExpMode) (exp : Byte) (raw : List Byte) :
    (responseOf (decodeResult mode exp raw)).status ≠ .contractViolation :=
  ne_of_mem_of_not_mem (decodeResult_status_mem mode exp raw) (by decide)

section
variable (b : Config.Build) (q : Request)

/-- The statuses of a malformed frame come from DECODE and DECODE.MIN alone (R160). -/
theorem ctrl_of_blockFunction_status_mem :
    (blockFunction b q).status ∈ [.badMarker, .badChecksum, .lengthMismatch] → q.ctrl = 0x02#8 ∨ q.ctrl = 0x06#8 := by
  refine blockFunction_cases
    (P := fun r => r.status ∈ [.badMarker, .badChecksum, .lengthMismatch] → q.ctrl = 0x02#8 ∨ q.ctrl = 0x06#8)
    (fun _ hs => ?refused) (fun _ _ hs => ?encode) (fun _ hc _ => .inl hc) (fun _ hc _ => .inr hc)
    (fun _ _ hs => ?ackchk)
  case refused => simp at hs
  case encode =>
    rw [encodeResult_status] at hs
    split_ifs at hs <;> simp at hs
  case ackchk => simp at hs

/-- CONTRACT_VIOLATION is answered exactly to an ENCODE that is let in and holds more than MAX_PARAMS (R104, R160). -/
theorem blockFunction_status_eq_contractViolation_iff :
    (blockFunction b q).status = .contractViolation ↔
      q.dlen ≤ b.dataMax ∧ q.ctrl = 0x01#8 ∧ b.maxParams < q.dlen := by
  constructor
  · refine blockFunction_cases
      (P := fun r => r.status = .contractViolation → q.dlen ≤ b.dataMax ∧ q.ctrl = 0x01#8 ∧ b.maxParams < q.dlen)
      (fun _ hs => ?refused) (fun hd hc hs => ⟨hd, hc, ?encode⟩)
      (fun _ _ hs => absurd hs (decodeResult_status_ne_contractViolation .exact q.exp q.data))
      (fun _ _ hs => absurd hs (decodeResult_status_ne_contractViolation .atLeast q.exp q.data))
      (fun _ _ hs => ?ackchk)
    case refused => simp at hs
    case encode => exact (encodeResult_status_eq_contractViolation_iff b q.cc q.data).mp hs
    case ackchk => simp at hs
  · rintro ⟨hd, hc, hcap⟩
    rw [blockFunction_encode hd hc]
    exact (encodeResult_status_eq_contractViolation_iff b q.cc q.data).mpr hcap

/-- BAD_REQUEST is answered exactly to an oversize request and to a reserved CTRL (R64, R65, R160). -/
theorem blockFunction_status_eq_badRequest_iff_refused :
    (blockFunction b q).status = .badRequest ↔ b.dataMax < q.dlen ∨ q.ctrl ∉ ctrlMap := by
  by_cases hc : q.ctrl ∈ ctrlMap
  · rw [blockFunction_status_eq_badRequest_iff hc, or_iff_left (not_not_intro hc)]
  · rw [blockFunction_of_reserved hc, Response.error_status]
    exact iff_of_true rfl (.inr hc)

end

/-! ### The statements about exceptions -/

/-- Settles O20: no step stops, so a run of any length ends in a next state, and every step on the way keeps the
invariant. -/
theorem everyRunIsSafe : Obligations.EveryRunIsSafe := by
  intro s hs k
  obtain ⟨t, ht⟩ := exists_run k s
  exact ⟨t, ht, run_keeps everyStepKeepsTheInvariant hs ht⟩

/-- Settles O8: a latched request is completed with its answer through the decoder and `exec`, which is F of it. -/
theorem computeAnswersTheBlockFunction : Obligations.ComputeAnswersTheBlockFunction := by
  intro s q hp hq
  rw [compute_of_busy hp hq, answered_eq_blockFunction]
  rfl

/-- Settles O9: of the cases of a step, an accepted submit and a reset are shut out by the event, a collect that is taken
and a computation by the phase, and the others write none of the four fields. -/
theorem idleChangesOnlyBySubmitOrReset : Obligations.IdleChangesOnlyBySubmitOrReset := by
  intro s t hidle hsubmit hreset h
  cases stepCase_of_step h with
  | submitAccepted q rest he => exact absurd (head?_of_eq_cons he) (hsubmit q)
  | reset rest he => exact absurd (head?_of_eq_cons he) hreset
  | collected r rest he hp => rw [hidle] at hp; cases hp
  | computed q he hp => rw [hidle] at hp; cases hp
  | submitHeld | collectHeld | notEnabled | stayed => exact ⟨hidle, rfl, rfl, rfl⟩

/-- Settles O43: every response is an OK one or the bare error of its status. -/
theorem errorResponsesAreZeroButStatus : Obligations.ErrorResponsesAreZeroButStatus :=
  fun b q hs => (blockFunction_okOrBare b q).resolve_left hs

/-- Settles O44: F by cases, with the statuses each operation can answer. -/
theorem statusesComeFromTheirOperations : Obligations.StatusesComeFromTheirOperations :=
  ⟨⟨rfl, rfl, rfl, rfl, rfl, rfl⟩, fun b q => ⟨ctrl_of_blockFunction_status_mem b q,
    blockFunction_status_eq_contractViolation_iff b q, blockFunction_status_eq_badRequest_iff_refused b q⟩⟩

/-- Settles O21: each case of a step names the state it answers. -/
theorem everyStepAnswersANextState : Obligations.EveryStepAnswersANextState := exists_step

end Sys2Proof.Machine

/-! SUPPORT. Reset and hazards: a completed state holds nothing of what was in the latches before, so that a reset costs
no response (R190, R191); and no schedule keeps the block in BUSY (R196). -/

namespace Sys2Proof.Machine

/-! ### Collect and compute in the phases R194 and R196 name -/

theorem collect_of_not_done {s : State} (h : s.phase ≠ .done) : s.collect = (.held, s) := by
  rcases collect_cases s with ⟨r, hp, -, -⟩ | ⟨-, hc⟩
  · exact absurd hp h
  · exact hc

theorem checkRequest_of_decodeRequest {b : Config.Build} {q : Request} {i : Instr} (hd : q.dlen ≤ b.dataMax)
    (hi : decodeRequest q = .ok i) : checkRequest b q = .ok i := by
  simp [checkRequest, acceptsLength, hd, hi]

/-- The compute step executes the instruction of the latched request (R165, R196). -/
theorem compute_of_decodeRequest {s : State} {q : Request} {i : Instr} (hp : s.phase = .busy) (hq : s.reqL = some q)
    (hd : q.dlen ≤ s.build.dataMax) (hi : decodeRequest q = .ok i) : compute s = exec i s := by
  rw [compute_of_busy hp hq, answered, checkRequest_of_decodeRequest hd hi, exec_eq_complete]

/-! ### A reset and the response it loses -/

/-- A second response takes the place of the first. -/
@[simp] theorem State.complete_complete (s : State) (r r' : Response) : (s.complete r).complete r' = s.complete r' :=
  rfl

theorem submit_resetBlock_accepted (s : State) (q : Request) : (s.resetBlock.submit q).1 = .accepted := by
  rw [submit_of_idle q s.resetBlock_phase]

/-- A request submitted after a reset is completed as if it had been latched without one: completing writes all that
a reset and a submit write. -/
theorem compute_submit_resetBlock (s : State) (q : Request) :
    compute (s.resetBlock.submit q).2 = .next (s.complete (answered s.build q)) := by
  rw [submit_of_idle q s.resetBlock_phase, compute_of_busy rfl rfl]
  rfl

/-! ### BUSY is left -/

/-- A step that stays in BUSY has used up an event: with none left the block computes. -/
theorem StepCase.events_ne_nil_of_busy {s t : State} (hc : StepCase s t) (h : s.Inv) (hp : s.phase = .busy)
    (ht : t.phase = .busy) : s.events ≠ [] := by
  cases hc with
  | submitAccepted _ _ he | submitHeld _ _ he | collected _ _ he | collectHeld _ he | reset _ he | stayed _ he =>
    simp [he]
  | computed => cases ht
  | notEnabled he hn =>
    have ⟨_, hbusy, _⟩ := h
    exact absurd ⟨hp, hbusy.mpr hp⟩ hn

/-- By induction on the schedule: a step leaves BUSY, or stays in it with one event fewer to come. -/
theorem exists_run_leaves_busy {s : State} {es : List Event} (he : s.events = es) (h : s.Inv) (hp : s.phase = .busy) :
    ∃ k t, k ≤ es.length + 1 ∧ run k s = .next t ∧ t.phase ≠ .busy := by
  induction es generalizing s with
  | nil =>
    obtain ⟨t, ht, hc⟩ := step_cases s
    exact ⟨1, t, Nat.le_refl 1, run_succ_of_step 0 ht, fun hb => hc.events_ne_nil_of_busy h hp hb he⟩
  | cons e rest ih =>
    obtain ⟨u, hu, hc⟩ := step_cases s
    by_cases hb : u.phase = .busy
    · have hrest : u.events = rest := by rw [hc.events_eq_tail, he, List.tail_cons]
      obtain ⟨k, t, hk, hrun, ht⟩ := ih hrest (hc.inv h) hb
      exact ⟨k + 1, t, Nat.succ_le_succ hk, (run_succ_of_step k hu).trans hrun, ht⟩
    · exact ⟨1, u, Nat.le_add_left 1 _, run_succ_of_step 0 hu, hb⟩

/-! ### The statements about reset and hazards -/

/-- Settles O13: only an event can put the compute step off, and each of them once. -/
theorem busyIsLeftInFinitelyManySteps : Obligations.BusyIsLeftInFinitelyManySteps :=
  fun _ hs hp => exists_run_leaves_busy rfl hs hp

/-- Settles O14: t is s completed with the answer to q, and so is what a new submission computes after a reset. -/
theorem resubmissionAfterResetGivesTheLostResponse : Obligations.ResubmissionAfterResetGivesTheLostResponse := by
  intro s q hp hq _
  refine ⟨s.complete (answered s.build q), compute_of_busy hp hq, rfl, ⟨rfl, rfl⟩,
    submit_resetBlock_accepted s q, compute_submit_resetBlock s q, submit_resetBlock_accepted _ q, ?_⟩
  rw [compute_submit_resetBlock, State.complete_build, State.complete_complete]

/-- Settles O1: reset is defined by the three writes of R190. -/
theorem resetLeavesIdleAndEmpty : Obligations.ResetLeavesIdleAndEmpty := ⟨rfl, rfl, rfl, fun _ => rfl⟩

/-- Settles O3: the two cases of a submit. -/
theorem submitLatchesInIdleAndIsHeldElsewhere : Obligations.SubmitLatchesInIdleAndIsHeldElsewhere :=
  fun _ q => ⟨submit_of_idle q, submit_of_not_idle q⟩

/-- Settles O4: the two cases of a collect. -/
theorem collectHandsOverInDoneAndIsHeldElsewhere : Obligations.CollectHandsOverInDoneAndIsHeldElsewhere :=
  fun _ => ⟨fun _ => collect_of_done, collect_of_not_done⟩

/-- Settles O6: with that event used up, or with none left, the step is the compute step on the same latches. -/
theorem stepRunsTheDecodedInstruction : Obligations.StepRunsTheDecodedInstruction := by
  intro s q i rest hp hq hd hi
  constructor
  · intro he
    exact (step_of_cons he).trans (compute_of_decodeRequest (s := { s with events := rest }) hp hq hd hi)
  · intro he
    exact (step_of_nil he).trans (compute_of_decodeRequest hp hq hd hi)

end Sys2Proof.Machine

/-! SUPPORT. The schedule: what each kind of event makes of the state (assumptions 1 to 4), and what the step after
`withFetchWord` executes (assumptions 10 and 11). -/

namespace Sys2Proof.Machine

/-! ### What the port shows is added to the replies so far -/

@[simp] theorem submit_replies (s : State) (q : Request) : (s.submit q).2.replies = s.replies := by
  rcases submit_cases s q with ⟨-, h⟩ | ⟨-, h⟩ <;> rw [h]

@[simp] theorem collect_replies (s : State) : s.collect.2.replies = s.replies := by
  rcases collect_cases s with ⟨r, -, -, h⟩ | ⟨-, h⟩ <;> rw [h]

theorem handle_submit (s : State) (q : Request) :
    handle (.submit q) s = .next { (s.submit q).2 with replies := s.replies ++ [(s.submit q).1] } := by
  rw [handle, State.shown, submit_replies]

theorem handle_collect (s : State) :
    handle .collect s = .next { s.collect.2 with replies := s.replies ++ [s.collect.1] } := by
  rw [handle, State.shown, collect_replies]

/-! ### Table words -/

theorem decodeTableWord_eq_some_iff {nbits w : Nat} {i : Instr} :
    decodeTableWord nbits w = some i ↔ decodeRequest (tableRequest nbits w) = .ok i := by
  unfold decodeTableWord
  cases decodeRequest (tableRequest nbits w) <;> simp

/-- A table word's request has no data, so that every build admits it (R65). -/
theorem tableRequest_dlen (nbits w : Nat) : (tableRequest nbits w).dlen = 0 := rfl

/-! ### The statements about the schedule -/

/-- Settles O5: the step hands the oldest event to `handle`; a submit and a collect leave the replies so far as they
are, whether taken or held. -/
theorem stepDoesTheOldestEvent : Obligations.StepDoesTheOldestEvent := fun _ _ =>
  ⟨fun q he => (step_of_cons he).trans (handle_submit _ q),
    fun he => (step_of_cons he).trans (handle_collect _),
    step_of_cons, step_of_cons, step_of_cons, step_of_nil⟩

/-- Settles O7: `withFetchWord` latches the word's request in BUSY with a compute as the oldest event. -/
theorem fetchedWordIsExecutedNext : Obligations.FetchedWordIsExecutedNext := by
  intro s nbits w i hi
  have hdecode : decodeRequest (tableRequest nbits w) = .ok i := decodeTableWord_eq_some_iff.mp hi
  have hadmitted : (tableRequest nbits w).dlen ≤ s.build.dataMax := (tableRequest_dlen nbits w).trans_le (Nat.zero_le _)
  obtain ⟨hcompute, -⟩ :=
    stepRunsTheDecodedInstruction (s.withFetchWord nbits w) _ i s.events rfl rfl hadmitted hdecode
  exact hcompute rfl

end Sys2Proof.Machine
